-- ==== Sys2Proof/Word.lean ====
section
/-! DEFINITION. The word type (00_scope.md R6) and its plainest operators (R7, 40_permutation.md R80, R82).

Word `+` and `-` are BitVec's, modulo 2^32 with carry and borrow discarded; `^^^`, `&&&`, `|||`, `~~~` are the
bitwise operators and `<<<` the logical left shift of R7. -/

namespace Sys2Proof

/-- A 32-bit word, bit 0 the least significant (R6). -/
abbrev Word := BitVec 32

/-- `zext_32(n)` (R6): the word with unsigned value n. -/
abbrev zext32 (n : Nat) : Word := BitVec.ofNat 32 n

end Sys2Proof
end

