-- ==== Sys2Proof/Config.lean ====
section
/-! DEFINITION. What a build fixes (00_scope.md R5) and the values the spec leaves open (93_implementation_defined.md
U1, U2, U3, U8). -/

namespace Sys2Proof

/-- The build parameters of one block. DMAX, the largest order the share RAM holds, is any number from 2 to 16
(R5); the model fixes none of them (log 1). -/
structure Config where
  dmax  : Nat
  legal : 2 ≤ dmax ∧ dmax ≤ 16
deriving DecidableEq, Repr

/-- The default build of R5: DMAX = 8. -/
def Config.default : Config := { dmax := 8, legal := by decide }

/-- The n-th value the spec calls "any value (a draw)": what a read of a data register or of RNGCNT returns while
BUSY = 1, what an error read carries, what a read that overlaps a reset returns (20_memory.md R49, 10_state.md R31,
60_exceptions.md R165, 70_reset_and_hazards.md R180 (c); log 5). Nothing constrains it. -/
opaque Config.freeWord : Nat → Word

/-- BASE, where the host's address space holds the window (R5, 20_memory.md R40: OPEN). Only the offset reaches the
block, so no step depends on it (log 9). -/
opaque Config.base : Nat

end Sys2Proof
end

