-- ==== Sys2Proof/Syntax.lean ====
section
/-! DEFINITION. The commands, one constructor per row of spec/opcode_table.json (30_encoding.md R61, R69), and the
error codes' names (60_exceptions.md R161). -/

namespace Sys2Proof

/-- The masked-addition schemes, SCHEME 0..4 (30_encoding.md R63). -/
inductive Scheme where
  | bool | conv | goubin | ks | ho
deriving DecidableEq, Repr

/-- The codes a CMD write can be rejected with (60_exceptions.md R161); NONE is the absence of one. -/
inductive CmdError where
  /-- OP 0xA..0xF, or a bit set outside OP and the fields the OP uses. -/
  | illegalCmd
  /-- NB = 0b11, or SCHEME 5..7, in a command that uses the field. -/
  | config
  /-- d < 2, d > DMAX, or d ≠ 2 for a two-share scheme. -/
  | order
  /-- HO with d in range and no power of two. -/
  | notSupported
deriving DecidableEq, Repr

/-- The commands. `nb` is the NB field, `full` the FULL bit, `order` the ORDER field (30_encoding.md R60, R62, R64). A
row's mask also matches NB = 0b11 and every ORDER (R69); which of them a command accepts is WellFormed. -/
inductive Instr where
  | nop
  | permute        (nb : BitVec 2) (full : Bool)
  | mpermuteBool   (nb : BitVec 2) (full : Bool) (order : BitVec 5)
  | mpermuteConv   (nb : BitVec 2) (full : Bool) (order : BitVec 5)
  | mpermuteGoubin (nb : BitVec 2) (full : Bool) (order : BitVec 5)
  | mpermuteKs     (nb : BitVec 2) (full : Bool) (order : BitVec 5)
  | mpermuteHo     (nb : BitVec 2) (full : Bool) (order : BitVec 5)
  | mask           (nb : BitVec 2) (order : BitVec 5)
  | unmask         (nb : BitVec 2) (order : BitVec 5)
  | secand         (order : BitVec 5)
  | maddBool       (order : BitVec 5)
  | maddConv       (order : BitVec 5)
  | maddGoubin     (order : BitVec 5)
  | maddKs         (order : BitVec 5)
  | maddHo         (order : BitVec 5)
  | b2a
  | a2b
  | zeroize
deriving DecidableEq, Repr

end Sys2Proof
end

