-- ==== Sys2Proof/WellFormed.lean ====
section
/-! DEFINITION. Which commands a build accepts, said positively (30_encoding.md R62, R63; 41_secure_adders.md R112,
R114; 60_exceptions.md R161). The check ORDER of 60_exceptions.md R162 is `Machine.check` in Machine/Operands.lean, and
Laws/Operands.lean proves that it finds no error exactly when the command is well formed. -/

namespace Sys2Proof

/-- NB names a state width: 0b00, 0b01 or 0b10 (R62). -/
def Instr.wfNb (nb : BitVec 2) : Bool := nb ≠ 3#2

/-- An order the share RAM holds: 2 ≤ d ≤ DMAX (R161). -/
def Instr.wfOrder (dmax : Nat) (order : BitVec 5) : Bool := 2 ≤ order.toNat && order.toNat ≤ dmax

/-- The orders a scheme accepts (R63, R114): BOOL every order held, CONV, GOUBIN and KS two shares, HO the powers of
two. -/
def Instr.wfScheme (dmax : Nat) (order : BitVec 5) : Scheme → Bool
  | .bool   => wfOrder dmax order
  | .conv   => order = 2#5
  | .goubin => order = 2#5
  | .ks     => order = 2#5
  | .ho     => wfOrder dmax order && (order = 2#5 || order = 4#5 || order = 8#5 || order = 16#5)

/-- The commands a block of order capacity `dmax` accepts. -/
def Instr.wellFormed (dmax : Nat) : Instr → Bool
  | .nop                   => true
  | .permute nb _          => wfNb nb
  | .mpermuteBool nb _ d   => wfNb nb && wfScheme dmax d .bool
  | .mpermuteConv nb _ d   => wfNb nb && wfScheme dmax d .conv
  | .mpermuteGoubin nb _ d => wfNb nb && wfScheme dmax d .goubin
  | .mpermuteKs nb _ d     => wfNb nb && wfScheme dmax d .ks
  | .mpermuteHo nb _ d     => wfNb nb && wfScheme dmax d .ho
  | .mask nb d             => wfNb nb && wfOrder dmax d
  | .unmask nb d           => wfNb nb && wfOrder dmax d
  | .secand d              => wfOrder dmax d
  | .maddBool d            => wfScheme dmax d .bool
  | .maddConv d            => wfScheme dmax d .conv
  | .maddGoubin d          => wfScheme dmax d .goubin
  | .maddKs d              => wfScheme dmax d .ks
  | .maddHo d              => wfScheme dmax d .ho
  | .b2a                   => true
  | .a2b                   => true
  | .zeroize               => true

end Sys2Proof
end

