-- ==== Sys2Proof/Decode.lean ====
section
/-! DEFINITION. The command decoder, total over all 2^32 words (30_encoding.md R60-R66), and after it the encoder, both
from the field table of R60 and the word table of R65. -/

namespace Sys2Proof

/-- OP, bits 3:0 (R60). -/
def opField (w : Word) : BitVec 4 := w.extractLsb' 0 4
/-- NB, bits 5:4 (R60). -/
def nbField (w : Word) : BitVec 2 := w.extractLsb' 4 2
/-- FULL, bit 6 (R60). -/
def fullField (w : Word) : Bool := w.getLsbD 6
/-- SCHEME, bits 10:8 (R60). -/
def schemeField (w : Word) : BitVec 3 := w.extractLsb' 8 3
/-- ORDER, bits 16:12 (R60). -/
def orderField (w : Word) : BitVec 5 := w.extractLsb' 12 5

/-- ALLOWED(op) (60_exceptions.md R162): the bits a command of this OP may have set. -/
def allowed (op : BitVec 4) : Word :=
  match op.toNat with
  | 1 => 0x0000007F#32
  | 2 => 0x0001F77F#32
  | 3 => 0x0001F03F#32
  | 4 => 0x0001F03F#32
  | 5 => 0x0001F00F#32
  | 6 => 0x0001F70F#32
  | _ => 0x0000000F#32

/-- MPERMUTE's row by SCHEME (R63, R69); SCHEME 5..7 is rejected with CONFIG. -/
def decodeMpermute (scheme : BitVec 3) (nb : BitVec 2) (full : Bool) (order : BitVec 5) : Except CmdError Instr :=
  match scheme.toNat with
  | 0 => .ok (.mpermuteBool nb full order)
  | 1 => .ok (.mpermuteConv nb full order)
  | 2 => .ok (.mpermuteGoubin nb full order)
  | 3 => .ok (.mpermuteKs nb full order)
  | 4 => .ok (.mpermuteHo nb full order)
  | _ => .error .config

/-- MADD's row by SCHEME (R63, R69); SCHEME 5..7 is rejected with CONFIG. -/
def decodeMadd (scheme : BitVec 3) (order : BitVec 5) : Except CmdError Instr :=
  match scheme.toNat with
  | 0 => .ok (.maddBool order)
  | 1 => .ok (.maddConv order)
  | 2 => .ok (.maddGoubin order)
  | 3 => .ok (.maddKs order)
  | 4 => .ok (.maddHo order)
  | _ => .error .config

/-- The row a word selects by OP and SCHEME, its fields pulled out (R61, R69). -/
def decodeRow (w : Word) : Except CmdError Instr :=
  match (opField w).toNat with
  | 0 => .ok .nop
  | 1 => .ok (.permute (nbField w) (fullField w))
  | 2 => decodeMpermute (schemeField w) (nbField w) (fullField w) (orderField w)
  | 3 => .ok (.mask (nbField w) (orderField w))
  | 4 => .ok (.unmask (nbField w) (orderField w))
  | 5 => .ok (.secand (orderField w))
  | 6 => decodeMadd (schemeField w) (orderField w)
  | 7 => .ok .b2a
  | 8 => .ok .a2b
  | 9 => .ok .zeroize
  | _ => .error .illegalCmd

/-- The command a word is, or the code it is rejected with before its values are looked at (60_exceptions.md R162):
first OP, then the bits outside ALLOWED(op), then SCHEME. NB = 0b11 has the same code as SCHEME 5..7, so the checks
of R162 that follow here, on NB and ORDER, are `Machine.check`. -/
def decode (w : Word) : Except CmdError Instr :=
  if 10 ≤ (opField w).toNat then .error .illegalCmd
  else if w &&& ~~~(allowed (opField w)) ≠ 0#32 then .error .illegalCmd
  else decodeRow w

/-- A CMD32 word from its fields, the reserved ones 0 (R60). -/
def packFields (op nb full scheme order : Nat) : Word :=
  BitVec.ofNat 32 (op + nb * 2 ^ 4 + full * 2 ^ 6 + scheme * 2 ^ 8 + order * 2 ^ 12)

/-- The word of a command (R65). -/
def encode : Instr → Word
  | .nop                   => packFields 0 0 0 0 0
  | .permute nb f          => packFields 1 nb.toNat f.toNat 0 0
  | .mpermuteBool nb f d   => packFields 2 nb.toNat f.toNat 0 d.toNat
  | .mpermuteConv nb f d   => packFields 2 nb.toNat f.toNat 1 d.toNat
  | .mpermuteGoubin nb f d => packFields 2 nb.toNat f.toNat 2 d.toNat
  | .mpermuteKs nb f d     => packFields 2 nb.toNat f.toNat 3 d.toNat
  | .mpermuteHo nb f d     => packFields 2 nb.toNat f.toNat 4 d.toNat
  | .mask nb d             => packFields 3 nb.toNat 0 0 d.toNat
  | .unmask nb d           => packFields 4 nb.toNat 0 0 d.toNat
  | .secand d              => packFields 5 0 0 0 d.toNat
  | .maddBool d            => packFields 6 0 0 0 d.toNat
  | .maddConv d            => packFields 6 0 0 1 d.toNat
  | .maddGoubin d          => packFields 6 0 0 2 d.toNat
  | .maddKs d              => packFields 6 0 0 3 d.toNat
  | .maddHo d              => packFields 6 0 0 4 d.toNat
  | .b2a                   => packFields 7 0 0 0 0
  | .a2b                   => packFields 8 0 0 0 0
  | .zeroize               => packFields 9 0 0 0 0

/-- The host's question: the command of a table word. A CMD32 word is one 32-bit word, so its bits are numbered in
the table as in CMD; bits above `nbits` are 0. -/
def decodeTableWord (nbits w : Nat) : Option Instr :=
  match decode (BitVec.ofNat 32 (w % 2 ^ nbits)) with
  | .ok i => some i
  | .error _ => none

end Sys2Proof
end

