-- ==== Sys2Proof/Machine/State.lean ====
section
/-! DEFINITION. The machine's state (10_state.md R21-R36) and the schedule of what the other agents do. -/

namespace Sys2Proof.Machine

/-- STATUS's fields (10_state.md R27); its reserved bits read 0. BUSY is also the engine's phase (R32). -/
structure Status where
  busy    : Bool
  done    : Bool
  err     : Bool
  errcode : BitVec 4
  ovr     : Bool
  wbusy   : Bool
  buserr  : Bool
deriving DecidableEq, Repr

/-- Whether a transaction moves a whole word or less: a byte, a halfword, a write with some byte enables off
(20_memory.md R42, R45; log 20). -/
inductive AccessWidth where
  | word | narrow
deriving DecidableEq, Repr

/-- What a transaction asks for. -/
inductive Access where
  | read
  | write (v : Word)
deriving DecidableEq, Repr

/-- One host transaction at an offset of the window (20_memory.md R40, R42). -/
structure Txn where
  off    : BitVec 12
  width  : AccessWidth
  access : Access
deriving DecidableEq, Repr

/-- What happens next outside or inside the block (10_state.md R20; log 2). -/
inductive Event where
  /-- The host performs a transaction. -/
  | bus (t : Txn)
  /-- The RNG source has RNG_VALID high with `w` on RNG_DATA (10_state.md R35). -/
  | rng (w : Word)
  /-- The engine takes its own step (70_reset_and_hazards.md R183). -/
  | engine
  /-- RST is asserted, over a transaction or none (70_reset_and_hazards.md R180). -/
  | rst (lost : Option Txn)
deriving DecidableEq, Repr

/-- What the bus answered last (log 6): an OK or an error response to a read or a write (60_exceptions.md R165), or a
transaction that overlapped a reset (70_reset_and_hazards.md R180 (c)). -/
inductive BusResp where
  | none
  | written
  | read (v : Word)
  | writeError
  | readError (v : Word)
  | lostWrite
  | lostRead (v : Word)
deriving DecidableEq, Repr

/-- One block. The register vectors have the 16 slots the window lays out (20_memory.md R41); slots and rows from DMAX
on do not exist and are never reached (log 12). -/
structure State where
  /-- The build's parameters; no step changes them (00_scope.md R5; log 1). -/
  cfg    : Config
  /-- The share RAM SH[k][w] (10_state.md R21). -/
  sh     : Vector (Vector Word 16) 16
  /-- The operand registers PX[k] (R23). -/
  px     : Vector Word 16
  /-- The operand registers PY[k] (R23). -/
  py     : Vector Word 16
  /-- The result registers PZ[k] (R24). -/
  pz     : Vector Word 16
  /-- CMD, the last latched command word (R26), which is the running command's while BUSY (R32). -/
  cmd    : Word
  /-- STATUS (R27). -/
  status : Status
  /-- CTRL.IE (R28). -/
  ie     : Bool
  /-- RNGCNT (R31). -/
  rngcnt : Word
  /-- The RNG words the running command has received, oldest first (R32, R35; log 10). -/
  got    : List Word
  /-- What happens next, soonest first (log 2). -/
  sched  : List Event
  /-- The bus's answer to the last transaction (log 6). -/
  resp   : BusResp
  /-- How many free values have been used (log 5). -/
  free   : Nat
deriving DecidableEq, Repr

/-- Why a step stops. -/
inductive Fault where
  /-- Raised by the engine's own step, and by a meaning that is run in it, when STATUS.BUSY = 1 and the command it is to
  complete is no accepted command. Safe: only accepted commands set BUSY (60_exceptions.md R162), so no run reaches
  it (log 7). -/
  | latchedNotACommand
deriving DecidableEq, Repr

/-- Why an instruction has no meaning. -/
inductive Refusal where
  /-- Raised by an arm of exec for an instruction the model gives no meaning. Safe. No arm raises it. -/
  | notModelled (mnemonic : String)
deriving DecidableEq, Repr

/-- STATUS = 0x00000000 (10_state.md R36). -/
def Status.reset : Status :=
  { busy := false, done := false, err := false, errcode := 0#4, ovr := false, wbusy := false, buserr := false }

/-- The state of a block of build `c` right after reset (10_state.md R36). -/
def State.resetOf (c : Config) : State :=
  { cfg := c
    sh := Vector.replicate 16 (Vector.replicate 16 0#32)
    px := Vector.replicate 16 0#32
    py := Vector.replicate 16 0#32
    pz := Vector.replicate 16 0#32
    cmd := 0#32
    status := Status.reset
    ie := false
    rngcnt := 0#32
    got := []
    sched := []
    resp := .none
    free := 0 }

/-- The default build (DMAX = 8) right after reset. -/
def State.reset : State := State.resetOf Config.default

end Sys2Proof.Machine
end

