-- ==== Sys2Proof/Machine/Bits.lean ====
section
/-! DEFINITION. Bit and register-file helpers: rotation (40_permutation.md R81), one bit of a word, the XOR of shares
(00_scope.md R7, R9), and writing the first registers of a file. -/

namespace Sys2Proof.Machine

/-- `rotr(a, n)` for 0 ≤ n ≤ 31 (R81). -/
def rotr (a : Word) (n : Nat) : Word :=
  if n = 0 then a else (a >>> n) ||| (a <<< (32 - n))

/-- `XOR_{k} v_k` over a list, 0 over the empty one (00_scope.md R7): the boolean value of a shared word (R9). -/
def xorAll {w : Nat} (vs : List (BitVec w)) : BitVec w := vs.foldr (· ^^^ ·) 0#w

/-- Bit k of a word as a one-bit vector (00_scope.md R6). -/
def bitAt (v : Word) (k : Nat) : BitVec 1 := v.extractLsb' k 1

/-- `v[k] <- b`. -/
def setBit (v : Word) (k : Nat) (b : BitVec 1) : Word :=
  (v &&& ~~~(BitVec.twoPow 32 k)) ||| (b.setWidth 32 <<< k)

/-- A word from the bits of a status register: bit k is the k-th of the list. -/
def packBits (bs : List Bool) : Word :=
  bs.foldr (fun b acc => (acc <<< 1) ||| (if b then 1#32 else 0#32)) 0#32

/-- The register file `v` with its first registers replaced by `vs`, the others kept; what would not fit is dropped. -/
def splice {α : Type} {n : Nat} (vs : List α) (v : Vector α n) : Vector α n :=
  ⟨(vs.take n ++ v.toList.drop vs.length).toArray, by simp; omega⟩

end Sys2Proof.Machine
end

