-- ==== Sys2Proof/Machine/Flags.lean ====
section
/-! DEFINITION. The status and control words and every way a flag changes (10_state.md R27, R28, R30;
60_exceptions.md R161, R163, R167, R168; 70_reset_and_hazards.md R183). -/

namespace Sys2Proof.Machine

/-- ERRCODE's value for a rejection (60_exceptions.md R161). -/
def errCode : CmdError → BitVec 4
  | .illegalCmd   => 1#4
  | .config       => 2#4
  | .order        => 3#4
  | .notSupported => 4#4

/-- STATUS as a read returns it (10_state.md R27). -/
def statusWord (f : Status) : Word :=
  packBits [f.busy, f.done, f.err, false,
    f.errcode.getLsbD 0, f.errcode.getLsbD 1, f.errcode.getLsbD 2, f.errcode.getLsbD 3,
    f.ovr, f.wbusy, f.buserr]

/-- CTRL as a read returns it: IE in bit 0, the rest 0 (10_state.md R28). -/
def ctrlWord (ie : Bool) : Word := packBits [ie]

/-- ID's constant, ASCII "SPKL" (10_state.md R29). -/
def idWord : Word := 0x53504B4C#32

/-- PARAM: DMAX in bits 4:0 and the mask of the five schemes in bits 12:8 (10_state.md R30). -/
def paramWord (c : Config) : Word := BitVec.ofNat 32 c.dmax ||| 0x00001F00#32

/-- STATUS after a write of `w` to it: a 1 clears its write-one-to-clear bit, and ERR takes ERRCODE with it
(10_state.md R27, 60_exceptions.md R167). -/
def acknowledge (w : Word) (f : Status) : Status :=
  { f with
    done    := f.done && !w.getLsbD 1
    err     := f.err && !w.getLsbD 2
    errcode := if w.getLsbD 2 then 0#4 else f.errcode
    ovr     := f.ovr && !w.getLsbD 8
    wbusy   := f.wbusy && !w.getLsbD 9
    buserr  := f.buserr && !w.getLsbD 10 }

/-- STATUS after a rejection (60_exceptions.md R163). -/
def rejectedStatus (c : CmdError) (f : Status) : Status :=
  { f with err := true, errcode := errCode c, done := true }

/-- STATUS after an acceptance (70_reset_and_hazards.md R183). -/
def acceptedStatus (f : Status) : Status :=
  { f with busy := true, done := false, err := false, errcode := 0#4 }

/-- STATUS after a completion (70_reset_and_hazards.md R183). -/
def completedStatus (f : Status) : Status :=
  { f with busy := false, done := true }

/-- The IRQ line: CTRL.IE ∧ STATUS.DONE (10_state.md R34, 60_exceptions.md R168). -/
def irq (s : State) : Bool := s.ie && s.status.done

end Sys2Proof.Machine
end

