-- ==== Sys2Proof/Machine/Operands.lean ====
section
/-! DEFINITION. The operand forms of the commands: the variant a command's NB and FULL select (30_encoding.md R62), the
checks on its values (60_exceptions.md R162), its draw count (70_reset_and_hazards.md R190), and the registers its
operands stand in (10_state.md R21-R24). -/

namespace Sys2Proof.Machine

/-! ### Variants -/

/-- The branches NB selects (30_encoding.md R62). NB = 0b11 selects none: it is rejected before anything uses this. -/
def branches (nb : BitVec 2) : Nat :=
  match nb.toNat with
  | 0 => 4
  | 1 => 6
  | 2 => 8
  | _ => 0

/-- The rounds NB and FULL select (30_encoding.md R62). -/
def steps (nb : BitVec 2) (full : Bool) : Nat :=
  match nb.toNat, full with
  | 0, false => 7
  | 0, true  => 10
  | 1, false => 7
  | 1, true  => 11
  | 2, false => 8
  | 2, true  => 12
  | _, _     => 0

/-- The words of a state row: 2·nb (30_encoding.md R62). -/
def rowLen (nb : BitVec 2) : Nat := 2 * branches nb

/-! ### The checks of a command's values -/

/-- `HOSupported(d)`: d is a power of two, at least 2 (41_secure_adders.md R112; ORDER holds at most 31). -/
def hoSupported (d : Nat) : Bool := d = 2 || d = 4 || d = 8 || d = 16

/-- NB = 0b11 is CONFIG (60_exceptions.md R162). -/
def checkNb (nb : BitVec 2) : Option CmdError :=
  if nb = 3#2 then some .config else none

/-- d < 2 or d > DMAX is ORDER (60_exceptions.md R162). -/
def checkOrder (dmax : Nat) (d : Nat) : Option CmdError :=
  if d < 2 ∨ dmax < d then some .order else none

/-- After the range of d, the scheme's own limit (60_exceptions.md R162, 41_secure_adders.md R114). -/
def checkSchemeOrder (dmax : Nat) (d : Nat) : Scheme → Option CmdError
  | .bool   => checkOrder dmax d
  | .conv   => checkOrder dmax d <|> (if d ≠ 2 then some .order else none)
  | .goubin => checkOrder dmax d <|> (if d ≠ 2 then some .order else none)
  | .ks     => checkOrder dmax d <|> (if d ≠ 2 then some .order else none)
  | .ho     => checkOrder dmax d <|> (if hoSupported d then none else some .notSupported)

/-- The code a decoded command is rejected with, the first failing check first, or none if it is accepted
(60_exceptions.md R162). -/
def check (dmax : Nat) : Instr → Option CmdError
  | .nop                   => none
  | .permute nb _          => checkNb nb
  | .mpermuteBool nb _ d   => checkNb nb <|> checkSchemeOrder dmax d.toNat .bool
  | .mpermuteConv nb _ d   => checkNb nb <|> checkSchemeOrder dmax d.toNat .conv
  | .mpermuteGoubin nb _ d => checkNb nb <|> checkSchemeOrder dmax d.toNat .goubin
  | .mpermuteKs nb _ d     => checkNb nb <|> checkSchemeOrder dmax d.toNat .ks
  | .mpermuteHo nb _ d     => checkNb nb <|> checkSchemeOrder dmax d.toNat .ho
  | .mask nb d             => checkNb nb <|> checkOrder dmax d.toNat
  | .unmask nb d           => checkNb nb <|> checkOrder dmax d.toNat
  | .secand d              => checkOrder dmax d.toNat
  | .maddBool d            => checkSchemeOrder dmax d.toNat .bool
  | .maddConv d            => checkSchemeOrder dmax d.toNat .conv
  | .maddGoubin d          => checkSchemeOrder dmax d.toNat .goubin
  | .maddKs d              => checkSchemeOrder dmax d.toNat .ks
  | .maddHo d              => checkSchemeOrder dmax d.toNat .ho
  | .b2a                   => none
  | .a2b                   => none
  | .zeroize               => none

/-! ### Draw counts -/

/-- Draws of one secure AND of order d: d(d−1)/2 (41_secure_adders.md R101, R102). -/
def secAndDraws (d : Nat) : Nat := d * (d - 1) / 2

/-- `A(SCHEME, d)`, the draws of one masked addition (41_secure_adders.md R114). -/
def adderDraws (d : Nat) : Scheme → Nat
  | .bool   => 31 * secAndDraws d
  | .conv   => 3
  | .goubin => 1
  | .ks     => 2
  | .ho     => if d = 2 then 1 else d - 1

/-- Draws of MPERMUTE: steps · nb · 4 · A(SCHEME, d) (42_masked_permutation.md R147). -/
def mpermuteDraws (nb : BitVec 2) (full : Bool) (d : Nat) (sch : Scheme) : Nat :=
  steps nb full * branches nb * 4 * adderDraws d sch

/-- N, the RNG words a command receives before it completes (70_reset_and_hazards.md R190). -/
def draws : Instr → Nat
  | .nop                   => 0
  | .permute _ _           => 0
  | .mpermuteBool nb f d   => mpermuteDraws nb f d.toNat .bool
  | .mpermuteConv nb f d   => mpermuteDraws nb f d.toNat .conv
  | .mpermuteGoubin nb f d => mpermuteDraws nb f d.toNat .goubin
  | .mpermuteKs nb f d     => mpermuteDraws nb f d.toNat .ks
  | .mpermuteHo nb f d     => mpermuteDraws nb f d.toNat .ho
  | .mask nb d             => (d.toNat - 1) * rowLen nb
  | .unmask _ _            => 0
  | .secand d              => secAndDraws d.toNat
  | .maddBool d            => adderDraws d.toNat .bool
  | .maddConv d            => adderDraws d.toNat .conv
  | .maddGoubin d          => adderDraws d.toNat .goubin
  | .maddKs d              => adderDraws d.toNat .ks
  | .maddHo d              => adderDraws d.toNat .ho
  | .b2a                   => 1
  | .a2b                   => 1
  | .zeroize               => 0

/-! ### Operand registers -/

/-- PX[0..d−1], a shared word (10_state.md R23). -/
def pxShares (d : Nat) (s : State) : List Word := s.px.toList.take d

/-- PY[0..d−1], a shared word (10_state.md R23). -/
def pyShares (d : Nat) (s : State) : List Word := s.py.toList.take d

/-- PZ[0..] replaced by the shares of a result, the later PZ kept (10_state.md R24). -/
def setPz (zs : List Word) (s : State) : State := { s with pz := splice zs s.pz }

/-- SH[0..d−1][0..n−1], row by row (10_state.md R21). -/
def shareRows (d n : Nat) (s : State) : List (List Word) :=
  (s.sh.toList.take d).map fun r => r.toList.take n

/-- The first rows of SH with their first words replaced; the later words of those rows and the later rows are kept
(10_state.md R21). -/
def setShareRows (rows : List (List Word)) (s : State) : State :=
  { s with sh := splice (List.zipWith splice rows s.sh.toList) s.sh }

/-- `XOR_k SH[k][w]` for w < n: the value of a masked state given row by row (42_masked_permutation.md R140). -/
def xorRows (n : Nat) (rows : List (List Word)) : List Word :=
  (List.range n).map fun w => xorAll (rows.map fun r => r.getD w 0#32)

end Sys2Proof.Machine
end

