-- ==== Sys2Proof/Machine/Ops.lean ====
section
/-! DEFINITION. The named operations on the state: RNG words (10_state.md R35, 00_scope.md R8), rejecting, accepting and
completing a command (60_exceptions.md R163, 70_reset_and_hazards.md R183), and the one shape every command's meaning
has. `reject` is this hardware's one exception entry; `acknowledge` (Machine/Flags.lean) is its return. -/

namespace Sys2Proof.Machine

/-! ### RNG words -/

/-- `Rand32()` (00_scope.md R8): the next of the words received, and the words after it. A command runs only when all
its words are there, so the empty list is never asked (log 18). -/
def rand32 (ws : List Word) : Word × List Word := (ws.headD 0#32, ws.tail)

/-- `n` times `Rand32()`, in order. -/
def randMany : Nat → List Word → List Word × List Word
  | 0, ws => ([], ws)
  | n + 1, ws =>
    let r := randMany n (rand32 ws).2
    ((rand32 ws).1 :: r.1, r.2)

/-- The RNG words the engine still waits for: those of the command in CMD that have not arrived, none when it is idle
(70_reset_and_hazards.md R183, R187). -/
def wordsMissing (s : State) : Nat :=
  if s.status.busy then
    match decode s.cmd with
    | .ok i => draws i - s.got.length
    | .error _ => 0
  else 0

/-- The RNG_READY line (10_state.md R35): high while the engine waits for a word. -/
def rngReady (s : State) : Bool := 0 < wordsMissing s

/-- A step with RNG_VALID high and `w` on RNG_DATA: consumed exactly when RNG_READY is high (10_state.md R35). -/
def offerWord (w : Word) (s : State) : State :=
  if rngReady s then { s with got := s.got ++ [w] } else s

/-! ### Commands -/

/-- `reject(code)` (60_exceptions.md R163). -/
def reject (c : CmdError) (s : State) : State :=
  { s with status := rejectedStatus c s.status }

/-- `accept(w)`, CMD already holding w (70_reset_and_hazards.md R183). -/
def accept (s : State) : State :=
  { s with status := acceptedStatus s.status, rngcnt := 0#32, got := [] }

/-- `complete()` after the results are written: RNGCNT <- N, BUSY cleared, DONE set, IDLE, and no word kept for the
next command (70_reset_and_hazards.md R183, 10_state.md R32). -/
def complete (n : Nat) (s : State) : State :=
  { s with rngcnt := BitVec.ofNat 32 n, got := [], status := completedStatus s.status }

/-- The engine's next step on command `i`, which writes its results by `result` from the RNG words received (log 3).
IDLE, it is the CMD write's examination of `i`: rejection with the first failing check's code, or acceptance
(60_exceptions.md R162). BUSY, it is the completion once all N words are there (70_reset_and_hazards.md R183), and
until then the engine waits with nothing changed (R187). -/
def runCommand (i : Instr) (result : List Word → State → State) (s : State) : Host.Outcome State Fault Refusal :=
  match s.status.busy, check s.cfg.dmax i with
  | false, some c => .next (reject c s)
  | false, none => .next (accept s)
  | true, some _ => .fault .latchedNotACommand
  | true, none =>
    if s.got.length < draws i then .next s else .next (complete (draws i) (result s.got s))

/-! ### The bus's side -/

/-- The bus's answer to the transaction. -/
def respond (r : BusResp) (s : State) : State := { s with resp := r }

/-- A read that returns any value: the answer carries a fresh free value (20_memory.md R49; log 5). -/
def respondFree (r : Word → BusResp) (s : State) : State :=
  { s with resp := r (Config.freeWord s.free), free := s.free + 1 }

/-- STATUS.BUSERR set (60_exceptions.md R165). -/
def setBuserr (s : State) : State := { s with status := { s.status with buserr := true } }

/-- STATUS.OVR set (60_exceptions.md R166). -/
def setOvr (s : State) : State := { s with status := { s.status with ovr := true } }

/-- STATUS.WBUSY set (20_memory.md R49). -/
def setWbusy (s : State) : State := { s with status := { s.status with wbusy := true } }

end Sys2Proof.Machine
end

