-- ==== Sys2Proof/Machine/Permutation.lean ====
section
/-! DEFINITION. The unmasked permutation and the housekeeping commands (40_permutation.md R80-R93). -/

namespace Sys2Proof.Machine

/-- One 64-bit branch (x, y) of a state (10_state.md R22). -/
structure Branch where
  x : Word
  y : Word
deriving DecidableEq, Repr

/-- A row's words as its branches: word 2b is x_b, word 2b+1 is y_b (10_state.md R22). -/
def toBranches : List Word → List Branch
  | x :: y :: ws => ⟨x, y⟩ :: toBranches ws
  | _ => []

/-- The branches' words, in the row's order (10_state.md R22). -/
def ofBranches : List Branch → List Word
  | [] => []
  | b :: bs => b.x :: b.y :: ofBranches bs

/-- The round constants (10_state.md R25). -/
def rcon : List Word :=
  [0xB7E15162#32, 0xBF715880#32, 0x38B4DA56#32, 0x324E7738#32,
   0xBB1185EB#32, 0x4F7C7B57#32, 0xCFBFA1C8#32, 0xC2B3293D#32]

/-- `RCON[k]`, k < 8. -/
def rconAt (k : Nat) : Word := rcon.getD k 0#32

/-- `ell(x)` (R83). -/
def ell (x : Word) : Word := rotr (x ^^^ (x <<< 16)) 16

/-- The shift pairs (s1, s2) of Alzette's four steps (R84). -/
def alzetteShifts : List (Nat × Nat) := [(31, 24), (17, 17), (0, 31), (24, 16)]

/-- One Alzette step (R85): the y update reads the x just computed, before the constant is added. -/
def alzetteStep (rc : Word) (b : Branch) (sh : Nat × Nat) : Branch :=
  let x := b.x + rotr b.y sh.1
  let y := b.y ^^^ rotr x sh.2
  ⟨x ^^^ rc, y⟩

/-- `Alzette(x, y, rc)` (R85). -/
def alzette (b : Branch) (rc : Word) : Branch := alzetteShifts.foldl (alzetteStep rc) b

/-- Round-constant addition of round i (R86): word 1 is y_0 and word 3 is y_1. -/
def constAdd (i : Nat) : List Branch → List Branch
  | b0 :: b1 :: bs => ⟨b0.x, b0.y ^^^ rconAt (i % 8)⟩ :: ⟨b1.x, b1.y ^^^ zext32 i⟩ :: bs
  | bs => bs

/-- The ARX layer (R87): branch b under its own constant RCON[b]. -/
def arxLayer (S : List Branch) : List Branch := List.zipWith alzette S rcon

/-- Branch k of a state. -/
def branchAt (S : List Branch) (k : Nat) : Branch := S.getD k ⟨0#32, 0#32⟩

/-- The linear layer (R88): the new left half is, rotated by one branch, old left XOR old right XOR the crossed ell
terms, and the old left half moves unrotated into the right half. -/
def linear (S : List Branch) : List Branch :=
  let hb := S.length / 2
  let left := S.take hb
  let tx := ell (xorAll (left.map (·.x)))
  let ty := ell (xorAll (left.map (·.y)))
  (List.range hb).map (fun i =>
    let l := branchAt S ((i + 1) % hb)
    let r := branchAt S ((i + 1) % hb + hb)
    ⟨l.x ^^^ r.x ^^^ ty, l.y ^^^ r.y ^^^ tx⟩) ++ left

/-- Round i (R89). -/
def round (S : List Branch) (i : Nat) : List Branch := linear (arxLayer (constAdd i S))

/-- `Permute(S, nb, steps)` (R90); nb is the state's length. -/
def permute (steps : Nat) (S : List Branch) : List Branch := (List.range steps).foldl round S

/-- Permute on the words of a row. -/
def permuteWords (steps : Nat) (ws : List Word) : List Word := ofBranches (permute steps (toBranches ws))

/-! ### Results -/

/-- PERMUTE's result (R91): row 0 permuted in place. -/
def permuteResult (nb : BitVec 2) (full : Bool) (s : State) : State :=
  setShareRows ((shareRows 1 (rowLen nb) s).map (permuteWords (steps nb full))) s

/-- ZEROIZE's result (R93): SH, PX, PY and PZ cleared. -/
def zeroizeResult (s : State) : State :=
  { s with
    sh := Vector.replicate 16 (Vector.replicate 16 0#32)
    px := Vector.replicate 16 0#32
    py := Vector.replicate 16 0#32
    pz := Vector.replicate 16 0#32 }

/-! ### Commands -/

/-- NOP (R92): nothing at completion. -/
def execNop (s : State) : Host.Outcome State Fault Refusal :=
  runCommand .nop (fun _ t => t) s

/-- PERMUTE (R91). -/
def execPermute (nb : BitVec 2) (full : Bool) (s : State) : Host.Outcome State Fault Refusal :=
  runCommand (.permute nb full) (fun _ t => permuteResult nb full t) s

/-- ZEROIZE (R93). -/
def execZeroize (s : State) : Host.Outcome State Fault Refusal :=
  runCommand .zeroize (fun _ t => zeroizeResult t) s

end Sys2Proof.Machine
end

