-- ==== Sys2Proof/Machine/SecureAdders.lean ====
section
/-! DEFINITION. The secure primitives, the five masked adders and the commands that run them on PX, PY and PZ
(41_secure_adders.md R100-R122). Every function that draws takes the RNG words still unused and returns, beside its
result, the words after those it consumed. -/

namespace Sys2Proof.Machine

/-! ### Boolean scheme (§4.2) -/

/-- The order-d secure AND on w-bit shares (R101, R102), the pairs (x_i, y_i) given in order. Row i of the matrix is
drawn whole, r[i][i+1..d−1], then rows i+1, …: the order of R101. A draw is a whole RNG word cut to w bits: the word
itself for w = 32 (R101), its bit 0 for w = 1 (R102, `RandBit()`). `cross` is r[j][i] for j > i. -/
def secAnd {w : Nat} : List (BitVec w × BitVec w) → List Word → List (BitVec w) × List Word
  | [], ws => ([], ws)
  | (x, y) :: ps, ws =>
    let drawn := randMany ps.length ws
    let r := drawn.1.map (BitVec.setWidth w)
    let cross := List.zipWith (fun rj p => (rj ^^^ (x &&& p.2)) ^^^ (p.1 &&& y)) r ps
    let rest := secAnd ps drawn.2
    (((x &&& y) ^^^ xorAll r) :: List.zipWith (· ^^^ ·) rest.1 cross, rest.2)

/-- `SecAndW(X, Y)` (R101). -/
def secAndW (X Y : List Word) (ws : List Word) : List Word × List Word := secAnd (List.zip X Y) ws

/-- `SecAndBit(a, b)` (R102). -/
def secAndBit (a b : List (BitVec 1)) (ws : List Word) : List (BitVec 1) × List Word := secAnd (List.zip a b) ws

/-- Share-wise XOR of two shared values. -/
def xorShares {w : Nat} (a b : List (BitVec w)) : List (BitVec w) := List.zipWith (· ^^^ ·) a b

/-- `n` bit positions of BoolAdd from position k on (R103), the shared carry c and the result Z so far given; the last
position computes no carry. -/
def boolAddFrom (X Y : List Word) : Nat → Nat → List (BitVec 1) → List Word → List Word → List Word × List Word
  | 0, _, _, Z, ws => (Z, ws)
  | n + 1, k, c, Z, ws =>
    let a := X.map (bitAt · k)
    let b := Y.map (bitAt · k)
    let Z' := List.zipWith (fun z bit => setBit z k bit) Z (xorShares (xorShares a b) c)
    if k < 31 then
      let and := secAndBit (xorShares a c) (xorShares b c) ws
      boolAddFrom X Y n (k + 1) (xorShares and.1 c) Z' and.2
    else
      boolAddFrom X Y n (k + 1) c Z' ws

/-- `BoolAdd(X, Y)` (R103). -/
def boolAdd (X Y : List Word) (ws : List Word) : List Word × List Word :=
  boolAddFrom X Y 32 0 (X.map fun _ => 0#1) (X.map fun _ => 0#32) ws

/-! ### Conversion scheme (§4.3) -/

/-- `B2A(x, r, γ)` (R104). -/
def b2a (x r g : Word) : Word :=
  let t := x ^^^ g
  let t := t - g
  let t := t ^^^ x
  let g := g ^^^ r
  let a := x ^^^ g
  let a := a - g
  a ^^^ t

/-- One iteration of A2B's loop on T (R105), Ω, A and r fixed. -/
def a2bStep (om a r t : Word) : Word :=
  let g := t &&& r
  let g := g ^^^ om
  let t := t &&& a
  let g := g ^^^ t
  g <<< 1

/-- `A2B(A, r, γ)` (R105), 32 iterations. -/
def a2b (a r g : Word) : Word :=
  let t := g <<< 1
  let x := g ^^^ r
  let om := g &&& x
  let x := t ^^^ a
  let g := g ^^^ x
  let g := g &&& r
  let om := om ^^^ g
  let g := t &&& a
  let om := om ^^^ g
  x ^^^ Nat.iterate (a2bStep om a r) 32 t

/-- `ConvAdd(x_0, x_1, y_0, y_1)` (R106) with its draws γ1, γ2, γ3. -/
def convAdd (x0 x1 y0 y1 g1 g2 g3 : Word) : Word × Word :=
  let a := b2a x0 x1 g1
  let b := b2a y0 y1 g2
  let m := x1 + y1
  (a2b (a + b) m g3, m)

/-! ### Goubin adder (§4.4) -/

/-- One iteration of the Goubin adder's loop on B (R107); Ω is the initial carry term throughout (90_conflicts.md
C4). -/
def goubinStep (a0 a1 om t b : Word) : Word :=
  ((b &&& a0) ^^^ (b &&& a1) ^^^ om ^^^ t) <<< 1

/-- `GoubinAdd(x_0, x_1, y_0, y_1)` (R107) with its draw C. -/
def goubinAdd (x0 x1 y0 y1 c : Word) : Word × Word :=
  let om := c ^^^ (x0 &&& y0)
  let om := om ^^^ (x0 &&& y1)
  let om := om ^^^ (x1 &&& y0)
  let om := om ^^^ (x1 &&& y1)
  let a0 := x0 ^^^ y0
  let a1 := x1 ^^^ y1
  let t := ((c <<< 1) &&& a0) ^^^ ((c <<< 1) &&& a1)
  let b := Nat.iterate (goubinStep a0 a1 om t) 30 (om <<< 1)
  (a0 ^^^ b, a1 ^^^ (c <<< 1))

/-! ### Kogge-Stone adder (§4.5) -/

/-- `SecXor(x, y, r)` (R108). -/
def secXor (x y r : Word) : Word := x ^^^ y ^^^ r

/-- `SecAnd(x, y, s, t, u)` (R109). -/
def secAnd5 (x y s t u : Word) : Word := u ^^^ (x &&& y) ^^^ (x &&& t) ^^^ (s &&& y) ^^^ (s &&& t)

/-- `SecShift(x, s, t, j)` (R110). -/
def secShift (x s t : Word) (j : Nat) : Word := (t ^^^ (x <<< j)) ^^^ (s <<< j)

/-- The G update of one prefix level of shift j (R111): G <- G ⊕ (P ∧ (G << j)), under mask s. -/
def ksG (s t u : Word) (j : Nat) (p g : Word) : Word :=
  let h := secShift g s t j
  secXor g (secAnd5 p h s t u) u

/-- The P update of one prefix level of shift j (R111): P <- P ∧ (P << j), re-masked to s. -/
def ksP (s t u : Word) (j : Nat) (p : Word) : Word :=
  let h := secShift p s t j
  secAnd5 p h s t u ^^^ s ^^^ u

/-- One of the four full levels on (P, G); P's update reads the old P (R111). -/
def ksLevel (s t u : Word) (pg : Word × Word) (j : Nat) : Word × Word :=
  (ksP s t u j pg.1, ksG s t u j pg.1 pg.2)

/-- `KSAdd(x_0, x_1, y_0, y_1)` (R111) with its draws t and u. -/
def ksAdd (x0 x1 y0 y1 t u : Word) : Word × Word :=
  let s := x1
  let r := y1
  let p := secXor x0 y0 r
  let g := secAnd5 x0 y0 s r u ^^^ s ^^^ u
  let pg := [1, 2, 4, 8].foldl (ksLevel s t u) (p, g)
  let g := ksG s t u 16 pg.1 pg.2
  let z := secXor y0 x0 s
  let z := z ^^^ (g <<< 1)
  let z := z ^^^ (s <<< 1)
  (z ^^^ (s ^^^ r), s)

/-! ### Higher-order scheme (§4.6) and the dispatch on the scheme -/

/-- A two-share function on the first two shares of X and Y. -/
def onPairs (f : Word → Word → Word → Word → Word × Word) (X Y : List Word) : List Word :=
  let z := f (X.getD 0 0#32) (X.getD 1 0#32) (Y.getD 0 0#32) (Y.getD 1 0#32)
  [z.1, z.2]

/-- GoubinAdd on shared words, with its one draw (R107). -/
def goubinAddShares (X Y ws : List Word) : List Word × List Word :=
  let c := rand32 ws
  (onPairs (fun x0 x1 y0 y1 => goubinAdd x0 x1 y0 y1 c.1) X Y, c.2)

/-- ConvAdd on shared words, with its three draws in order (R106). -/
def convAddShares (X Y ws : List Word) : List Word × List Word :=
  let g1 := rand32 ws
  let g2 := rand32 g1.2
  let g3 := rand32 g2.2
  (onPairs (fun x0 x1 y0 y1 => convAdd x0 x1 y0 y1 g1.1 g2.1 g3.1) X Y, g3.2)

/-- KSAdd on shared words, with its two draws t, u (R111). -/
def ksAddShares (X Y ws : List Word) : List Word × List Word :=
  let t := rand32 ws
  let u := rand32 t.2
  (onPairs (fun x0 x1 y0 y1 => ksAdd x0 x1 y0 y1 t.1 u.1) X Y, u.2)

/-- `HOAdd(X, Y)` (R113): GoubinAdd for d = 2; else shares 1..d−1 are the draws and share 0 completes the sum. -/
def hoAdd (X Y ws : List Word) : List Word × List Word :=
  if X.length = 2 then goubinAddShares X Y ws
  else
    let z := randMany (X.length - 1) ws
    (((xorAll X + xorAll Y) ^^^ xorAll z.1) :: z.1, z.2)

/-- `MAdd(scheme, X, Y)` (R114). -/
def mAdd : Scheme → List Word → List Word → List Word → List Word × List Word
  | .bool   => boolAdd
  | .conv   => convAddShares
  | .goubin => goubinAddShares
  | .ks     => ksAddShares
  | .ho     => hoAdd

/-! ### Results -/

/-- PZ[0..d−1] <- SecAndW(PX[0..d−1], PY[0..d−1]) (R115). -/
def secandResult (order : BitVec 5) (ws : List Word) (s : State) : State :=
  setPz (secAndW (pxShares order.toNat s) (pyShares order.toNat s) ws).1 s

/-- PZ[0..d−1] <- MAdd(scheme, PX[0..d−1], PY[0..d−1]) (R116-R120). -/
def maddResult (sch : Scheme) (order : BitVec 5) (ws : List Word) (s : State) : State :=
  setPz (mAdd sch (pxShares order.toNat s) (pyShares order.toNat s) ws).1 s

/-- PZ[0] <- a conversion of PX[0] under mask PX[1] with one draw, PZ[1] <- PX[1] (R121, R122). -/
def convertResult (f : Word → Word → Word → Word) (ws : List Word) (s : State) : State :=
  setPz [f s.px[0] s.px[1] (rand32 ws).1, s.px[1]] s

/-! ### Commands -/

/-- SECAND (R115). -/
def execSecand (order : BitVec 5) (s : State) : Host.Outcome State Fault Refusal :=
  runCommand (.secand order) (secandResult order) s

/-- MADD.BOOL (R116). -/
def execMaddBool (order : BitVec 5) (s : State) : Host.Outcome State Fault Refusal :=
  runCommand (.maddBool order) (maddResult .bool order) s

/-- MADD.CONV (R117). -/
def execMaddConv (order : BitVec 5) (s : State) : Host.Outcome State Fault Refusal :=
  runCommand (.maddConv order) (maddResult .conv order) s

/-- MADD.GOUBIN (R118). -/
def execMaddGoubin (order : BitVec 5) (s : State) : Host.Outcome State Fault Refusal :=
  runCommand (.maddGoubin order) (maddResult .goubin order) s

/-- MADD.KS (R119). -/
def execMaddKs (order : BitVec 5) (s : State) : Host.Outcome State Fault Refusal :=
  runCommand (.maddKs order) (maddResult .ks order) s

/-- MADD.HO (R120). -/
def execMaddHo (order : BitVec 5) (s : State) : Host.Outcome State Fault Refusal :=
  runCommand (.maddHo order) (maddResult .ho order) s

/-- B2A (R121). -/
def execB2a (s : State) : Host.Outcome State Fault Refusal :=
  runCommand .b2a (convertResult b2a) s

/-- A2B (R122). -/
def execA2b (s : State) : Host.Outcome State Fault Refusal :=
  runCommand .a2b (convertResult a2b) s

end Sys2Proof.Machine
end

