-- ==== Sys2Proof/Machine/MaskedPermutation.lean ====
section
/-! DEFINITION. MASK, UNMASK and the masked permutation (42_masked_permutation.md R140-R152). A masked state is its d
rows, each a list of branches; row 0 is share 0. -/

namespace Sys2Proof.Machine

/-! ### MASK and UNMASK -/

/-- `n` rows of `len` fresh words, rows ascending, then words ascending (R141). -/
def randRows (len : Nat) : Nat → List Word → List (List Word) × List Word
  | 0, ws => ([], ws)
  | n + 1, ws =>
    let r := randMany len ws
    let rs := randRows len n r.2
    (r.1 :: rs.1, rs.2)

/-- MASK's result (R141): rows 1..d−1 drawn, row 0 XORed with them. -/
def maskResult (nb : BitVec 2) (order : BitVec 5) (ws : List Word) (s : State) : State :=
  let fresh := (randRows (rowLen nb) (order.toNat - 1) ws).1
  setShareRows (xorRows (rowLen nb) (shareRows 1 (rowLen nb) s ++ fresh) :: fresh) s

/-- UNMASK's result (R142): row 0 the XOR of rows 0..d−1, rows 1..d−1 cleared. -/
def unmaskResult (nb : BitVec 2) (order : BitVec 5) (s : State) : State :=
  setShareRows
    (xorRows (rowLen nb) (shareRows order.toNat (rowLen nb) s)
      :: List.replicate (order.toNat - 1) (List.replicate (rowLen nb) 0#32)) s

/-! ### The masked round -/

/-- Masked round-constant addition (R143): on share 0 only. -/
def maskedConstAdd (i : Nat) : List (List Branch) → List (List Branch)
  | row0 :: rows => constAdd i row0 :: rows
  | [] => []

/-- A constant into share 0 only (R144). -/
def xorHead (rc : Word) : List Word → List Word
  | x :: xs => (x ^^^ rc) :: xs
  | [] => []

/-- One step of the masked Alzette on the shared words X and Y of a branch (R144). -/
def mAlzetteStep (sch : Scheme) (rc : Word) (st : (List Word × List Word) × List Word) (sh : Nat × Nat) :
    (List Word × List Word) × List Word :=
  let sum := mAdd sch st.1.1 (st.1.2.map (rotr · sh.1)) st.2
  let Y := List.zipWith (fun y x => y ^^^ rotr x sh.2) st.1.2 sum.1
  ((xorHead rc sum.1, Y), sum.2)

/-- `MAlzette(b, rc)` on the shares of one branch (R144). -/
def mAlzette (sch : Scheme) (rc : Word) (col : List Branch) (ws : List Word) : List Branch × List Word :=
  let r := alzetteShifts.foldl (mAlzetteStep sch rc) ((col.map (·.x), col.map (·.y)), ws)
  (List.zipWith Branch.mk r.1.1 r.1.2, r.2)

/-- Branch b of every row. -/
def column (rows : List (List Branch)) (b : Nat) : List Branch := rows.map (branchAt · b)

/-- Branch b of every row replaced. -/
def setColumn (rows : List (List Branch)) (b : Nat) (col : List Branch) : List (List Branch) :=
  List.zipWith (fun row v => row.set b v) rows col

/-- The masked ARX layer over the branches listed, in that order (R144, R146). -/
def maskedArx (sch : Scheme) : List Nat → List (List Branch) → List Word → List (List Branch) × List Word
  | [], rows, ws => (rows, ws)
  | b :: bs, rows, ws =>
    let m := mAlzette sch (rconAt b) (column rows b) ws
    maskedArx sch bs (setColumn rows b m.1) m.2

/-- One masked round (R146): constants, branches 0..nb−1, then the linear layer on each row (R145). -/
def maskedRound (sch : Scheme) (nb : Nat) (st : List (List Branch) × List Word) (i : Nat) :
    List (List Branch) × List Word :=
  let r := maskedArx sch (List.range nb) (maskedConstAdd i st.1) st.2
  (r.1.map linear, r.2)

/-- `MaskedPermute(scheme, d, nb, steps)` on d rows (R146). -/
def maskedPermute (sch : Scheme) (nb steps : Nat) (rows : List (List Branch)) (ws : List Word) :
    List (List Branch) × List Word :=
  (List.range steps).foldl (maskedRound sch nb) (rows, ws)

/-- MPERMUTE's result (R147): rows 0..d−1 permuted in place. -/
def mpermuteResult (sch : Scheme) (nb : BitVec 2) (full : Bool) (order : BitVec 5) (ws : List Word) (s : State) :
    State :=
  let rows := (shareRows order.toNat (rowLen nb) s).map toBranches
  setShareRows ((maskedPermute sch (branches nb) (steps nb full) rows ws).1.map ofBranches) s

/-! ### Commands -/

/-- MASK (R141). -/
def execMask (nb : BitVec 2) (order : BitVec 5) (s : State) : Host.Outcome State Fault Refusal :=
  runCommand (.mask nb order) (maskResult nb order) s

/-- UNMASK (R142). -/
def execUnmask (nb : BitVec 2) (order : BitVec 5) (s : State) : Host.Outcome State Fault Refusal :=
  runCommand (.unmask nb order) (fun _ t => unmaskResult nb order t) s

/-- MPERMUTE.BOOL (R148). -/
def execMpermuteBool (nb : BitVec 2) (full : Bool) (order : BitVec 5) (s : State) :
    Host.Outcome State Fault Refusal :=
  runCommand (.mpermuteBool nb full order) (mpermuteResult .bool nb full order) s

/-- MPERMUTE.CONV (R149). -/
def execMpermuteConv (nb : BitVec 2) (full : Bool) (order : BitVec 5) (s : State) :
    Host.Outcome State Fault Refusal :=
  runCommand (.mpermuteConv nb full order) (mpermuteResult .conv nb full order) s

/-- MPERMUTE.GOUBIN (R150). -/
def execMpermuteGoubin (nb : BitVec 2) (full : Bool) (order : BitVec 5) (s : State) :
    Host.Outcome State Fault Refusal :=
  runCommand (.mpermuteGoubin nb full order) (mpermuteResult .goubin nb full order) s

/-- MPERMUTE.KS (R151). -/
def execMpermuteKs (nb : BitVec 2) (full : Bool) (order : BitVec 5) (s : State) :
    Host.Outcome State Fault Refusal :=
  runCommand (.mpermuteKs nb full order) (mpermuteResult .ks nb full order) s

/-- MPERMUTE.HO (R152). -/
def execMpermuteHo (nb : BitVec 2) (full : Bool) (order : BitVec 5) (s : State) :
    Host.Outcome State Fault Refusal :=
  runCommand (.mpermuteHo nb full order) (mpermuteResult .ho nb full order) s

end Sys2Proof.Machine
end

