-- ==== Sys2Proof/Machine/Dispatch.lean ====
section
/-! DEFINITION. The meaning of every command, one arm per constructor. -/

namespace Sys2Proof.Machine

def exec (i : Instr) (s : State) : Host.Outcome State Fault Refusal :=
  match i with
  | .nop => Sys2Proof.Machine.execNop s
  | .permute nb full => Sys2Proof.Machine.execPermute nb full s
  | .mpermuteBool nb full order => Sys2Proof.Machine.execMpermuteBool nb full order s
  | .mpermuteConv nb full order => Sys2Proof.Machine.execMpermuteConv nb full order s
  | .mpermuteGoubin nb full order => Sys2Proof.Machine.execMpermuteGoubin nb full order s
  | .mpermuteKs nb full order => Sys2Proof.Machine.execMpermuteKs nb full order s
  | .mpermuteHo nb full order => Sys2Proof.Machine.execMpermuteHo nb full order s
  | .mask nb order => Sys2Proof.Machine.execMask nb order s
  | .unmask nb order => Sys2Proof.Machine.execUnmask nb order s
  | .secand order => Sys2Proof.Machine.execSecand order s
  | .maddBool order => Sys2Proof.Machine.execMaddBool order s
  | .maddConv order => Sys2Proof.Machine.execMaddConv order s
  | .maddGoubin order => Sys2Proof.Machine.execMaddGoubin order s
  | .maddKs order => Sys2Proof.Machine.execMaddKs order s
  | .maddHo order => Sys2Proof.Machine.execMaddHo order s
  | .b2a => Sys2Proof.Machine.execB2a s
  | .a2b => Sys2Proof.Machine.execA2b s
  | .zeroize => Sys2Proof.Machine.execZeroize s

end Sys2Proof.Machine
end

