-- ==== Sys2Proof/Machine/Engine.lean ====
section
/-! DEFINITION. The two places the engine runs a command: in the host's CMD write and in its own completion step
(60_exceptions.md R162, R166; 70_reset_and_hazards.md R183). -/

namespace Sys2Proof.Machine

/-- The engine's own step. IDLE it does nothing (60_exceptions.md R175); BUSY it runs the command CMD holds, which
completes it or waits for RNG words (70_reset_and_hazards.md R183, R187). -/
def engineStep (s : State) : Host.Outcome State Fault Refusal :=
  if s.status.busy then
    match decode s.cmd with
    | .ok i => exec i s
    | .error _ => .fault .latchedNotACommand
  else .next s

/-- CMD <- w with the bus's OK response, before the word is examined (60_exceptions.md R162, R163). -/
def latch (w : Word) (s : State) : State := { s with cmd := w, resp := .written }

/-- A host write of `w` to CMD (10_state.md R26): an overrun while BUSY (60_exceptions.md R166); else the word is
latched and examined, and a word that is no command is rejected (R162). -/
def writeCmd (w : Word) (s : State) : Host.Outcome State Fault Refusal :=
  if s.status.busy then .next (respond .written (setOvr s))
  else
    match decode w with
    | .ok i => exec i (latch w s)
    | .error c => .next (reject c (latch w s))

end Sys2Proof.Machine
end

