-- ==== Sys2Proof/Machine/Window.lean ====
section
/-! DEFINITION. The register window: its address map (20_memory.md R41), host reads and writes (R42-R49), bus errors
(60_exceptions.md R165), and reset (70_reset_and_hazards.md R180). -/

namespace Sys2Proof.Machine

/-- The offset a host address names, `off = address − BASE`; none for an address outside the 4096 bytes of the window,
which is not this block's (20_memory.md R40). -/
def windowOffset (addr : Nat) : Option (BitVec 12) :=
  if Config.base ≤ addr ∧ addr < Config.base + 4096 then some (BitVec.ofNat 12 (addr - Config.base)) else none

/-- A register of the window (20_memory.md R41). -/
inductive Reg where
  | cmd | status | ctrl | id | param | rngcnt
  | px (k : Fin 16)
  | py (k : Fin 16)
  | pz (k : Fin 16)
  | sh (k w : Fin 16)
deriving DecidableEq, Repr

/-- Slot `k` of a data region, if the build has it (20_memory.md R41: slots and rows k ≥ DMAX are reserved). -/
def slot (dmax k : Nat) : Option (Fin 16) :=
  if h : k < 16 then (if k < dmax then some ⟨k, h⟩ else none) else none

/-- The register at an offset (20_memory.md R41): none at a misaligned offset (R44) or a reserved one (R46). -/
def regAt (dmax : Nat) (off : BitVec 12) : Option Reg :=
  let n := off.toNat
  if n % 4 ≠ 0 then none
  else if n < 0x018 then
    match n / 4 with
    | 0 => some .cmd
    | 1 => some .status
    | 2 => some .ctrl
    | 3 => some .id
    | 4 => some .param
    | _ => some .rngcnt
  else if n < 0x040 then none
  else if n < 0x080 then (slot dmax ((n - 0x040) / 4)).map .px
  else if n < 0x0C0 then (slot dmax ((n - 0x080) / 4)).map .py
  else if n < 0x100 then (slot dmax ((n - 0x0C0) / 4)).map .pz
  else (slot dmax ((n - 0x100) / 64)).map fun k => .sh k (Fin.ofNat 16 ((n - 0x100) % 64 / 4))

/-- The register a transaction reaches: none if it is narrow (20_memory.md R45) or its offset has none. -/
def target (s : State) (t : Txn) : Option Reg :=
  match t.width with
  | .word => regAt s.cfg.dmax t.off
  | .narrow => none

/-- What a read of a register returns; none stands for "any value": a data register or RNGCNT while BUSY
(20_memory.md R49, 10_state.md R31). -/
def readReg (r : Reg) (s : State) : Option Word :=
  let whenIdle (v : Word) : Option Word := if s.status.busy then none else some v
  match r with
  | .cmd    => some s.cmd
  | .status => some (statusWord s.status)
  | .ctrl   => some (ctrlWord s.ie)
  | .id     => some idWord
  | .param  => some (paramWord s.cfg)
  | .rngcnt => whenIdle s.rngcnt
  | .px k   => whenIdle s.px[k]
  | .py k   => whenIdle s.py[k]
  | .pz k   => whenIdle s.pz[k]
  | .sh k w => whenIdle s.sh[k][w]

/-- A read transaction (20_memory.md R48: no side effect; 60_exceptions.md R165: an error read sets BUSERR and carries
any value). -/
def busRead (r : Option Reg) (s : State) : State :=
  match r with
  | none => respondFree .readError (setBuserr s)
  | some r =>
    match readReg r s with
    | some v => respond (.read v) s
    | none => respondFree .read s

/-- A write answered with a bus error (60_exceptions.md R165). -/
def writeRefused (s : State) : State := respond .writeError (setBuserr s)

/-- A write to a data register (20_memory.md R49): dropped with WBUSY set while BUSY, stored by `store` else; the
response is OK. -/
def writeData (store : State → State) (s : State) : State :=
  respond .written (if s.status.busy then setWbusy s else store s)

/-- A write transaction (20_memory.md R44-R49). -/
def busWrite (r : Option Reg) (v : Word) (s : State) : Host.Outcome State Fault Refusal :=
  match r with
  | none => .next (writeRefused s)
  | some .cmd => writeCmd v s
  | some .status => .next (respond .written { s with status := acknowledge v s.status })
  | some .ctrl => .next (respond .written { s with ie := v.getLsbD 0 })
  | some .id => .next (writeRefused s)
  | some .param => .next (writeRefused s)
  | some .rngcnt => .next (writeRefused s)
  | some (.px k) => .next (writeData (fun t => { t with px := t.px.set k v }) s)
  | some (.py k) => .next (writeData (fun t => { t with py := t.py.set k v }) s)
  | some (.pz _) => .next (writeRefused s)
  | some (.sh k w) => .next (writeData (fun t => { t with sh := t.sh.set k (t.sh[k].set w v) }) s)

/-- One host transaction (20_memory.md R42, R50). -/
def busStep (t : Txn) (s : State) : Host.Outcome State Fault Refusal :=
  match t.access with
  | .read => .next (busRead (target s t) s)
  | .write v => busWrite (target s t) v s

/-- RST (70_reset_and_hazards.md R180): every piece of state takes its reset value; the build, the schedule and the
count of free values are no state of the block. A transaction that overlaps it has no effect, and a read returns any
value (c). -/
def resetStep (lost : Option Txn) (s : State) : State :=
  let t := { State.resetOf s.cfg with sched := s.sched, free := s.free }
  match lost with
  | none => t
  | some x =>
    match x.access with
    | .read => respondFree .lostRead t
    | .write _ => respond .lostWrite t

/-- One event of the schedule. -/
def eventStep (e : Event) (s : State) : Host.Outcome State Fault Refusal :=
  match e with
  | .bus t => busStep t s
  | .rng w => .next (offerWord w s)
  | .engine => engineStep s
  | .rst lost => .next (resetStep lost s)

/-- Taking the next event off the schedule; with none left, the engine has the turn (log 2). -/
def schedStep (s : State) : Host.Outcome State Fault Refusal :=
  match s.sched with
  | [] => engineStep s
  | e :: rest => eventStep e { s with sched := rest }

end Sys2Proof.Machine
end

