-- ==== Sys2Proof/Machine/Step.lean ====
section
/-! DEFINITION. One step of the machine, and how the host places a command. -/

namespace Sys2Proof.Machine

/-- One step: the next event of the schedule, or the engine's turn. -/
def step (s : State) : Host.Outcome State Fault Refusal := Sys2Proof.Machine.schedStep s

/-- `s` with the word `w` about to be written to CMD: the very next step is that host transaction, and the engine is
IDLE so that the word is examined and not dropped (60_exceptions.md R162, R166; log 3). -/
def State.withFetchWord (s : State) (nbits w : Nat) : State :=
  { s with
    sched := .bus ⟨0x000#12, .word, .write (BitVec.ofNat 32 (w % 2 ^ nbits))⟩ :: s.sched
    status := { s.status with busy := false }
    got := [] }

end Sys2Proof.Machine
end

