-- ==== Sys2Proof/Machine/HostProgram.lean ====
section
/-! DEFINITION. The host-side notation of 30_encoding.md R67 and R68 as builders of event lists. WAITIDLE's loop is the
host's; a schedule holds the polls it makes (log 22). -/

namespace Sys2Proof.Machine

/-- A transaction at a host address, if the address is in the window (00_scope.md R8: `addr = BASE + off`). -/
def hostAccess (addr : Nat) (a : Access) : Option Event := (windowOffset addr).map fun off => .bus ⟨off, .word, a⟩

/-- `WR off, v` (R67). -/
def hostWr (off : Nat) (v : Word) : Event := .bus ⟨BitVec.ofNat 12 off, .word, .write v⟩

/-- `RD off` (R67). -/
def hostRd (off : Nat) : Event := .bus ⟨BitVec.ofNat 12 off, .word, .read⟩

/-- `CMD m` (R68). -/
def hostCmd (i : Instr) : Event := hostWr 0x000 (encode i)

/-- `WAITIDLE` (R67) as n polls of STATUS. -/
def hostPolls (n : Nat) : List Event := List.replicate n (hostRd 0x004)

/-- `RUN m` (R68): the command, the RNG words it is given, the engine's completion, and the poll that reads BUSY = 0. -/
def hostRun (i : Instr) (ws : List Word) : List Event :=
  hostCmd i :: ws.map .rng ++ .engine :: hostPolls 1

/-- `LOADROW k, v0, ..., vn` (R68). -/
def hostLoadRow (k : Nat) (vs : List Word) : List Event :=
  vs.zipIdx.map fun p => hostWr (0x100 + 64 * k + 4 * p.2) p.1

/-- `READROW k, n` (R68). -/
def hostReadRow (k n : Nat) : List Event :=
  (List.range n).map fun i => hostRd (0x100 + 64 * k + 4 * i)

end Sys2Proof.Machine
end

