-- ==== Sys2Proof/Safety.lean ====
section
/-! DEFINITION. The terms the claims use: when a command can complete, the value a masked state or a shared register
stands for, what a step leaves alone, and the invariant of a run. -/

namespace Sys2Proof.Machine

/-- The engine is BUSY with an accepted command `i` and has all its RNG words: its completion step can come
(70_reset_and_hazards.md R183). -/
abbrev Ready (i : Instr) (s : State) : Prop :=
  s.status.busy = true ∧ i.wellFormed s.cfg.dmax = true ∧ draws i ≤ s.got.length

/-- The value of word w of the masked state in rows 0..d−1 (42_masked_permutation.md R140). -/
def maskedWord (d : Nat) (s : State) (w : Fin 16) : Word := xorAll ((s.sh.toList.take d).map fun r => r[w])

/-- PZ[0..d−1], a shared word (10_state.md R24). -/
def pzShares (d : Nat) (s : State) : List Word := s.pz.toList.take d

/-- No data register differs (10_state.md §2). -/
abbrev SameData (s t : State) : Prop := t.sh = s.sh ∧ t.px = s.px ∧ t.py = s.py ∧ t.pz = s.pz

/-- Nothing differs that only the host, the RNG or reset may change, or that is the build's: CMD, CTRL, the sticky
STATUS bits, the build, the schedule, the bus's answer and the count of free values. -/
abbrev SameHostSide (s t : State) : Prop :=
  t.cfg = s.cfg ∧ t.cmd = s.cmd ∧ t.ie = s.ie ∧ t.sched = s.sched ∧ t.resp = s.resp ∧ t.free = s.free ∧
    t.status.ovr = s.status.ovr ∧ t.status.wbusy = s.status.wbusy ∧ t.status.buserr = s.status.buserr

/-- The state a completion leaves beside its data results: RNGCNT the number of words, BUSY clear, DONE set, no word
kept, ERR and ERRCODE as they were (70_reset_and_hazards.md R183). -/
abbrev Completed (n : Nat) (s t : State) : Prop :=
  t.rngcnt = BitVec.ofNat 32 n ∧ t.status.busy = false ∧ t.status.done = true ∧ t.got = [] ∧
    t.status.err = s.status.err ∧ t.status.errcode = s.status.errcode ∧ SameHostSide s t

/-- The command MADD.<scheme> (30_encoding.md R69). -/
def maddOf : Scheme → BitVec 5 → Instr
  | .bool => .maddBool
  | .conv => .maddConv
  | .goubin => .maddGoubin
  | .ks => .maddKs
  | .ho => .maddHo

/-- The command MPERMUTE.<scheme> (30_encoding.md R69). -/
def mpermuteOf : Scheme → BitVec 2 → Bool → BitVec 5 → Instr
  | .bool => .mpermuteBool
  | .conv => .mpermuteConv
  | .goubin => .mpermuteGoubin
  | .ks => .mpermuteKs
  | .ho => .mpermuteHo

/-! ### The spec's tables, read off its words a second time for the claims -/

/-- ALLOWED(op), the table of 60_exceptions.md R162. -/
def specAllowed (op : Nat) : Word :=
  if op = 1 then 0x0000007F#32
  else if op = 2 then 0x0001F77F#32
  else if op = 3 ∨ op = 4 then 0x0001F03F#32
  else if op = 5 then 0x0001F00F#32
  else if op = 6 then 0x0001F70F#32
  else 0x0000000F#32

/-- The ERRCODE of a CMD write while idle, or none if the word is accepted: OnCmdWrite of 60_exceptions.md R162, on the
word's fields as numbers, with the codes of R161. -/
def specReject (dmax : Nat) (w : Word) : Option Nat :=
  let op := w.toNat % 16
  let nb := w.toNat / 2 ^ 4 % 4
  let sch := w.toNat / 2 ^ 8 % 8
  let d := w.toNat / 2 ^ 12 % 32
  if 10 ≤ op then some 1
  else if w &&& ~~~(specAllowed op) ≠ 0#32 then some 1
  else if (op = 1 ∨ op = 2 ∨ op = 3 ∨ op = 4) ∧ nb = 3 then some 2
  else if (op = 2 ∨ op = 6) ∧ 5 ≤ sch then some 2
  else if 2 ≤ op ∧ op ≤ 6 then
    if d < 2 ∨ dmax < d then some 3
    else if (op = 2 ∨ op = 6) ∧ 1 ≤ sch ∧ sch ≤ 3 ∧ d ≠ 2 then some 3
    else if (op = 2 ∨ op = 6) ∧ sch = 4 ∧ (∀ k < 5, d ≠ 2 ^ k) then some 4
    else none
  else none

/-- The reserved offsets of 20_memory.md R41. -/
def specReserved (dmax n : Nat) : Prop :=
  (0x018 ≤ n ∧ n < 0x040) ∨ (0x040 + 4 * dmax ≤ n ∧ n < 0x080) ∨ (0x080 + 4 * dmax ≤ n ∧ n < 0x0C0) ∨
    (0x0C0 + 4 * dmax ≤ n ∧ n < 0x100) ∨ 0x100 + 64 * dmax ≤ n

/-- The offsets of ID, PARAM, RNGCNT and the PZ block (20_memory.md R41, R47). -/
def specReadOnly (n : Nat) : Prop := (0x00C ≤ n ∧ n < 0x018) ∨ (0x0C0 ≤ n ∧ n < 0x100)

/-- The transactions answered with a bus error (60_exceptions.md R165 (a) to (d)). -/
def specBusError (dmax : Nat) (t : Txn) : Prop :=
  t.off.toNat % 4 ≠ 0 ∨ t.width = .narrow ∨ specReserved dmax t.off.toNat ∨
    ((∃ v, t.access = .write v) ∧ specReadOnly t.off.toNat)

/-- An error response. -/
def BusResp.isError : BusResp → Bool
  | .writeError => true
  | .readError _ => true
  | _ => false

/-! ### The invariant -/

/-- A BUSY engine's command is an accepted one and has at most its words; an idle engine holds none (10_state.md R32). -/
def State.EngineInv (s : State) : Prop :=
  (s.status.busy = true → ∃ i, decode s.cmd = .ok i ∧ i.wellFormed s.cfg.dmax = true ∧ s.got.length ≤ draws i) ∧
    (s.status.busy = false → s.got = [])

/-- While BUSY, DONE, ERR and RNGCNT are clear; ERRCODE is a code of 60_exceptions.md R161 exactly when ERR is set
(10_state.md R27, R31). -/
def State.FlagInv (s : State) : Prop :=
  (s.status.busy = true → s.status.done = false ∧ s.status.err = false ∧ s.rngcnt = 0#32) ∧
    (s.status.err = true → 1 ≤ s.status.errcode.toNat ∧ s.status.errcode.toNat ≤ 4) ∧
    (s.status.err = false → s.status.errcode = 0#4)

/-- The slots and rows the build does not have hold nothing (20_memory.md R41; log 12). -/
def State.AbsentInv (s : State) : Prop :=
  ∀ k : Fin 16, s.cfg.dmax ≤ k.val →
    s.px[k] = 0#32 ∧ s.py[k] = 0#32 ∧ s.pz[k] = 0#32 ∧ ∀ w : Fin 16, s.sh[k][w] = 0#32

/-- The invariant of every run. -/
def State.Inv (s : State) : Prop := s.EngineInv ∧ s.FlagInv ∧ s.AbsentInv

end Sys2Proof.Machine
end

