-- ==== Sys2Proof/Certificates/Slice0/Obligations.lean ====
section
/-! DEFINITION. The statements for the provers, one per rule or group of rules of spec/. `Ready i s` says that the
engine is BUSY with the accepted command i and has its RNG words; `Completed n s t` says what completion does to the
control state (Safety.lean). That events stand in a schedule, that the bus's answer, the build and a count of free values
are fields, and that exec is the engine's next step, are the model's choices (logs 1, 2, 3, 5, 6). -/

open Sys2Proof Sys2Proof.Machine

/-! ### Encoding -/

/-- Decoding a command's word gives the command back, every field at every value (30_encoding.md R60-R65). -/
def Obligations.EncodedCommandDecodes : Prop := ∀ i : Instr, decode (encode i) = .ok i

/-- A word the decoder reads as a command is that command's only word: no bit is ignored (30_encoding.md R65, R66). -/
def Obligations.DecodedWordIsItsEncoding : Prop := ∀ (w : Word) (i : Instr), decode w = .ok i → encode i = w

/-- Words of 95_test_vectors.md V17, of each family. -/
def Obligations.SpecCommandWordsDecode : Prop :=
  decode 0x00000000#32 = .ok .nop ∧ decode 0x00000051#32 = .ok (.permute 1#2 true) ∧
  decode 0x00002362#32 = .ok (.mpermuteKs 2#2 true 2#5) ∧ decode 0x00003013#32 = .ok (.mask 1#2 3#5) ∧
  decode 0x00002004#32 = .ok (.unmask 0#2 2#5) ∧ decode 0x00008005#32 = .ok (.secand 8#5) ∧
  decode 0x00003006#32 = .ok (.maddBool 3#5) ∧ decode 0x00002206#32 = .ok (.maddGoubin 2#5) ∧
  decode 0x00004406#32 = .ok (.maddHo 4#5) ∧ decode 0x00000007#32 = .ok .b2a ∧
  decode 0x00000008#32 = .ok .a2b ∧ decode 0x00000009#32 = .ok .zeroize

/-! ### The command path -/

/-- A CMD write while idle is examined in the check order of 60_exceptions.md R162: the first failing check's code is
recorded, and a word no check fails on is accepted. The whole next state is given. -/
def Obligations.CommandWriteFollowsCheckOrder : Prop :=
  ∀ (s : State) (w : Word) (rest : List Event),
    s.status.busy = false → s.sched = hostWr 0x000 w :: rest →
    step s = .next (match specReject s.cfg.dmax w with
      | some code =>
        { s with sched := rest, cmd := w, resp := .written
                 status := { s.status with err := true, errcode := BitVec.ofNat 4 code, done := true } }
      | none =>
        { s with sched := rest, cmd := w, resp := .written, rngcnt := 0#32, got := []
                 status := { s.status with busy := true, done := false, err := false, errcode := 0#4 } })

/-- A rejected CMD write changes nothing but CMD and STATUS.ERR, ERRCODE, DONE; the response is OK (60_exceptions.md
R163). -/
def Obligations.RejectedWriteChangesOnlyCmdAndStatus : Prop :=
  ∀ (s : State) (w : Word) (rest : List Event) (code : Nat),
    s.status.busy = false → s.sched = hostWr 0x000 w :: rest → specReject s.cfg.dmax w = some code →
    ∃ t, step s = .next t ∧ t.cmd = w ∧ t.resp = .written ∧
      t.status.err = true ∧ t.status.errcode = BitVec.ofNat 4 code ∧ t.status.done = true ∧ t.status.busy = false ∧
      SameData s t ∧ t.rngcnt = s.rngcnt ∧ t.got = s.got ∧ t.ie = s.ie ∧ t.status.ovr = s.status.ovr ∧
      t.status.wbusy = s.status.wbusy ∧ t.status.buserr = s.status.buserr ∧ t.sched = rest ∧ t.free = s.free ∧
      t.cfg = s.cfg

/-- Where each form traps: an idle engine rejects a command that is not well formed, with CONFIG for NB = 0b11, else
ORDER for an order out of range or not 2 for a two-share scheme, else NOT_SUPPORTED (60_exceptions.md R161). -/
def Obligations.IllFormedCommandIsRejected : Prop :=
  ∀ (i : Instr) (s : State), s.status.busy = false → i.wellFormed s.cfg.dmax = false →
    ∃ code : BitVec 4,
      exec i s = .next { s with status := { s.status with err := true, errcode := code, done := true } } ∧
      match i with
      | .permute _ _ => code = 2#4
      | .mask nb _ => code = if nb = 3#2 then 2#4 else 3#4
      | .unmask nb _ => code = if nb = 3#2 then 2#4 else 3#4
      | .mpermuteBool nb _ _ => code = if nb = 3#2 then 2#4 else 3#4
      | .mpermuteConv nb _ _ => code = if nb = 3#2 then 2#4 else 3#4
      | .mpermuteGoubin nb _ _ => code = if nb = 3#2 then 2#4 else 3#4
      | .mpermuteKs nb _ _ => code = if nb = 3#2 then 2#4 else 3#4
      | .mpermuteHo nb _ d =>
        code = if nb = 3#2 then 2#4 else if 2 ≤ d.toNat ∧ d.toNat ≤ s.cfg.dmax then 4#4 else 3#4
      | .maddHo d => code = if 2 ≤ d.toNat ∧ d.toNat ≤ s.cfg.dmax then 4#4 else 3#4
      | _ => code = 3#4

/-- An idle engine accepts every well-formed command: BUSY set, DONE, ERR, ERRCODE and RNGCNT cleared, no word received
yet, all else as before (70_reset_and_hazards.md R183, acceptance). The list of words received is the model's form of the
hidden result (log 10). -/
def Obligations.WellFormedCommandIsAccepted : Prop :=
  ∀ (i : Instr) (s : State), s.status.busy = false → i.wellFormed s.cfg.dmax = true →
    exec i s = .next
      { s with status := { s.status with busy := true, done := false, err := false, errcode := 0#4 }
               rngcnt := 0#32, got := [] }

/-- Every accepted command completes once its words are there, with RNGCNT its draw count, BUSY cleared and DONE set
(70_reset_and_hazards.md R183, completion; 60_exceptions.md R164). -/
def Obligations.ReadyCommandCompletes : Prop :=
  ∀ (i : Instr) (s : State), Ready i s → ∃ t, exec i s = .next t ∧ Completed (draws i) s t

/-- Until its words are there the engine waits with BUSY = 1 and nothing changed (70_reset_and_hazards.md R187). -/
def Obligations.EngineWaitsForWords : Prop :=
  ∀ (i : Instr) (s : State), s.status.busy = true → i.wellFormed s.cfg.dmax = true → s.got.length < draws i →
    exec i s = .next s

/-- The whole lifecycle of an accepted command: the CMD write, its N words one by one, the engine's step; after these
N + 2 steps the command has completed (70_reset_and_hazards.md R183, R190). The schedule is the model's (log 2). -/
def Obligations.AcceptedCommandRunsToCompletion : Prop :=
  ∀ (i : Instr) (s : State) (ws : List Word), s.status.busy = false → i.wellFormed s.cfg.dmax = true →
    ws.length = draws i → s.sched = hostWr 0x000 (encode i) :: (ws.map Event.rng ++ [Event.engine]) →
    ∃ t, Host.Core.run core (ws.length + 2) s = .next t ∧ t.cmd = encode i ∧ t.status.busy = false ∧
      t.status.done = true ∧ t.status.err = false ∧ t.rngcnt = BitVec.ofNat 32 (draws i) ∧ t.sched = []

/-- A step over a CMD write of a command's word, engine idle, is exec of the command, with the event taken off the
schedule, the word latched in CMD and the OK response given (60_exceptions.md R162). The schedule is the model's
(log 2). -/
def Obligations.StepRunsWrittenCommand : Prop :=
  ∀ (s : State) (w : Word) (i : Instr) (rest : List Event),
    s.status.busy = false → s.sched = hostWr 0x000 w :: rest → decode w = .ok i →
    step s = exec i { s with sched := rest, cmd := w, resp := .written }

/-- A step in which a BUSY engine has the turn is exec of the command in CMD, with the event, if there is one, taken
off the schedule (70_reset_and_hazards.md R183). The schedule is the model's (log 2). -/
def Obligations.StepRunsLatchedCommand : Prop :=
  ∀ (s : State) (i : Instr), s.status.busy = true → decode s.cmd = .ok i →
    (s.sched = [] → step s = exec i s) ∧
    (∀ rest, s.sched = .engine :: rest → step s = exec i { s with sched := rest })

/-! ### Housekeeping and the permutation -/

/-- NOP completes and changes no data (40_permutation.md R92). -/
def Obligations.NopLeavesAllData : Prop :=
  ∀ s : State, Ready .nop s → ∃ t, exec .nop s = .next t ∧ Completed 0 s t ∧ SameData s t

/-- ZEROIZE completes with every data register zero (40_permutation.md R93). -/
def Obligations.ZeroizeClearsAllData : Prop :=
  ∀ s : State, Ready .zeroize s → ∃ t, exec .zeroize s = .next t ∧ Completed 0 s t ∧
    ∀ k : Fin 16, t.px[k] = 0#32 ∧ t.py[k] = 0#32 ∧ t.pz[k] = 0#32 ∧ ∀ w : Fin 16, t.sh[k][w] = 0#32

/-- PERMUTE completes with row 0's first 2nb words permuted; its other words and the other rows are unchanged
(40_permutation.md R91). -/
def Obligations.PermuteRunsOnRowZero : Prop :=
  ∀ (nb : BitVec 2) (full : Bool) (s : State), Ready (.permute nb full) s →
    ∃ t, exec (.permute nb full) s = .next t ∧ Completed 0 s t ∧
      (∀ w : Fin 16, t.sh[0][w] =
        if w.val < rowLen nb then
          (permuteWords (steps nb full) (s.sh[0].toList.take (rowLen nb))).getD w.val 0#32
        else s.sh[0][w]) ∧
      (∀ k w : Fin 16, 0 < k.val → t.sh[k][w] = s.sh[k][w]) ∧ t.px = s.px ∧ t.py = s.py ∧ t.pz = s.pz

/-- Rotation by n moves bit (i + n) mod 32 to bit i (40_permutation.md R81). -/
def Obligations.RotationMovesBits : Prop :=
  ∀ (a : Word) (n i : Nat), n < 32 → i < 32 → (rotr a n).getLsbD i = a.getLsbD ((i + n) % 32)

/-- The linear layer is linear: the image of the branch-wise XOR is the XOR of the images (42_masked_permutation.md
R145). -/
def Obligations.LinearLayerIsLinear : Prop :=
  ∀ S T : List Branch, S.length = T.length →
    linear (List.zipWith (fun a b => ⟨a.x ^^^ b.x, a.y ^^^ b.y⟩) S T) =
      List.zipWith (fun a b => ⟨a.x ^^^ b.x, a.y ^^^ b.y⟩) (linear S) (linear T)

/-- The permutation is one: for each width it maps different states to different states, for any number of rounds
(00_scope.md R1, 40_permutation.md R85-R90). -/
def Obligations.PermutationIsInjective : Prop :=
  ∀ (nb : BitVec 2) (n : Nat) (S T : List Branch), nb ≠ 3#2 → S.length = branches nb → T.length = branches nb →
    permute n S = permute n T → S = T

/-! ### Secure primitives and adders -/

/-- SecXor, SecAnd and SecShift are the source's formulas and have their value forms (41_secure_adders.md R108, R109,
R110). -/
def Obligations.KoggeStonePrimitivesHaveValueForms : Prop :=
  (∀ x y r : Word, secXor x y r = x ^^^ y ^^^ r) ∧
  (∀ x y s t u : Word,
    secAnd5 x y s t u = u ^^^ (x &&& y) ^^^ (x &&& t) ^^^ (s &&& y) ^^^ (s &&& t) ∧
    secAnd5 x y s t u = u ^^^ ((x ^^^ s) &&& (y ^^^ t))) ∧
  (∀ (x s t : Word) (j : Nat),
    secShift x s t j = (t ^^^ (x <<< j)) ^^^ (s <<< j) ∧ secShift x s t j = ((x ^^^ s) <<< j) ^^^ t)

/-- The contract of every adder at every order its scheme accepts: the result's shares are as many as the operands' and
recombine to the sum, for every draw sequence (41_secure_adders.md R100, R114). -/
def Obligations.EveryAdderRecombinesToTheSum : Prop :=
  ∀ (c : Config) (sch : Scheme) (d : BitVec 5) (X Y ws : List Word),
    Instr.wfScheme c.dmax d sch = true → X.length = d.toNat → Y.length = d.toNat →
    (mAdd sch X Y ws).1.length = d.toNat ∧ xorAll (mAdd sch X Y ws).1 = xorAll X + xorAll Y

/-- What a rule consumes is what RNGCNT will show: each adder its count of 41_secure_adders.md R114, the secure AND
d(d−1)/2 (R101), the masked permutation steps·nb·4 times the adder's (42_masked_permutation.md R147). -/
def Obligations.DrawsConsumedAreTheCounts : Prop :=
  ∀ (c : Config) (sch : Scheme) (d : BitVec 5) (ws : List Word),
    (∀ X Y : List Word, X.length = d.toNat → Y.length = d.toNat →
      (secAndW X Y ws).2 = ws.drop (d.toNat * (d.toNat - 1) / 2)) ∧
    (Instr.wfScheme c.dmax d sch = true →
      (∀ X Y : List Word, X.length = d.toNat → Y.length = d.toNat →
        (mAdd sch X Y ws).2 = ws.drop (adderDraws d.toNat sch)) ∧
      (∀ (nb n : Nat) (rows : List (List Branch)), rows.length = d.toNat →
        (maskedPermute sch nb n rows ws).2 = ws.drop (n * nb * 4 * adderDraws d.toNat sch)))

/-- SECAND: PZ[0..d−1] recombines to the AND of the operands, RNGCNT is d(d−1)/2, all else is unchanged
(41_secure_adders.md R101, R115). -/
def Obligations.SecandRecombinesToTheAnd : Prop :=
  ∀ (d : BitVec 5) (s : State), Ready (.secand d) s →
    ∃ t, exec (.secand d) s = .next t ∧ Completed (d.toNat * (d.toNat - 1) / 2) s t ∧
      xorAll (pzShares d.toNat t) = xorAll (pxShares d.toNat s) &&& xorAll (pyShares d.toNat s) ∧
      (∀ k : Fin 16, d.toNat ≤ k.val → t.pz[k] = s.pz[k]) ∧ t.sh = s.sh ∧ t.px = s.px ∧ t.py = s.py

/-- MADD.BOOL: PZ[0..d−1] recombines to the sum, RNGCNT is 31·d(d−1)/2 (41_secure_adders.md R103, R116). -/
def Obligations.MaddBoolRecombinesToTheSum : Prop :=
  ∀ (d : BitVec 5) (s : State), Ready (.maddBool d) s →
    ∃ t, exec (.maddBool d) s = .next t ∧ Completed (31 * (d.toNat * (d.toNat - 1) / 2)) s t ∧
      xorAll (pzShares d.toNat t) = xorAll (pxShares d.toNat s) + xorAll (pyShares d.toNat s) ∧
      (∀ k : Fin 16, d.toNat ≤ k.val → t.pz[k] = s.pz[k]) ∧ t.sh = s.sh ∧ t.px = s.px ∧ t.py = s.py

/-- MADD.CONV: the closed form ((X + Y) ⊕ m, m) with m = x_1 + y_1, RNGCNT is 3 (41_secure_adders.md R106, R117). -/
def Obligations.MaddConvClosedForm : Prop :=
  ∀ (d : BitVec 5) (s : State), Ready (.maddConv d) s →
    ∃ t, exec (.maddConv d) s = .next t ∧ Completed 3 s t ∧
      t.pz[0] = ((s.px[0] ^^^ s.px[1]) + (s.py[0] ^^^ s.py[1])) ^^^ (s.px[1] + s.py[1]) ∧
      t.pz[1] = s.px[1] + s.py[1] ∧
      (∀ k : Fin 16, 2 ≤ k.val → t.pz[k] = s.pz[k]) ∧ t.sh = s.sh ∧ t.px = s.px ∧ t.py = s.py

/-- MADD.GOUBIN: the closed form z_1 = x_1 ⊕ y_1 ⊕ (C << 1), z_0 = (X + Y) ⊕ z_1 with C the draw, RNGCNT is 1
(41_secure_adders.md R107, R118). -/
def Obligations.MaddGoubinClosedForm : Prop :=
  ∀ (d : BitVec 5) (s : State) (c : Word) (ws : List Word), Ready (.maddGoubin d) s → s.got = c :: ws →
    ∃ t, exec (.maddGoubin d) s = .next t ∧ Completed 1 s t ∧
      t.pz[1] = s.px[1] ^^^ s.py[1] ^^^ (c <<< 1) ∧
      t.pz[0] = ((s.px[0] ^^^ s.px[1]) + (s.py[0] ^^^ s.py[1])) ^^^ t.pz[1] ∧
      (∀ k : Fin 16, 2 ≤ k.val → t.pz[k] = s.pz[k]) ∧ t.sh = s.sh ∧ t.px = s.px ∧ t.py = s.py

/-- MADD.KS: the closed form ((X + Y) ⊕ x_1, x_1), RNGCNT is 2 (41_secure_adders.md R111, R119). -/
def Obligations.MaddKsClosedForm : Prop :=
  ∀ (d : BitVec 5) (s : State), Ready (.maddKs d) s →
    ∃ t, exec (.maddKs d) s = .next t ∧ Completed 2 s t ∧
      t.pz[0] = ((s.px[0] ^^^ s.px[1]) + (s.py[0] ^^^ s.py[1])) ^^^ s.px[1] ∧ t.pz[1] = s.px[1] ∧
      (∀ k : Fin 16, 2 ≤ k.val → t.pz[k] = s.pz[k]) ∧ t.sh = s.sh ∧ t.px = s.px ∧ t.py = s.py

/-- MADD.HO: PZ[0..d−1] recombines to the sum; at d = 2 it is the Goubin adder on the same draw, at d ≥ 4 shares 1..d−1
are the draws; RNGCNT is 1 or d − 1 (41_secure_adders.md R113, R120). -/
def Obligations.MaddHoRecombinesToTheSum : Prop :=
  ∀ (d : BitVec 5) (s : State), Ready (.maddHo d) s →
    ∃ t, exec (.maddHo d) s = .next t ∧ Completed (if d.toNat = 2 then 1 else d.toNat - 1) s t ∧
      xorAll (pzShares d.toNat t) = xorAll (pxShares d.toNat s) + xorAll (pyShares d.toNat s) ∧
      (d.toNat = 2 → t.pz[1] = s.px[1] ^^^ s.py[1] ^^^ (s.got.headD 0#32 <<< 1)) ∧
      (4 ≤ d.toNat → ∀ k : Fin 16, 1 ≤ k.val → k.val < d.toNat → t.pz[k] = s.got.getD (k.val - 1) 0#32) ∧
      (∀ k : Fin 16, d.toNat ≤ k.val → t.pz[k] = s.pz[k]) ∧ t.sh = s.sh ∧ t.px = s.px ∧ t.py = s.py

/-- B2A: PZ[0] = (x ⊕ r) − r for every draw, PZ[1] = r, RNGCNT is 1 (41_secure_adders.md R104, R121). -/
def Obligations.B2aClosedForm : Prop :=
  ∀ s : State, Ready .b2a s →
    ∃ t, exec .b2a s = .next t ∧ Completed 1 s t ∧
      t.pz[0] = (s.px[0] ^^^ s.px[1]) - s.px[1] ∧ t.pz[1] = s.px[1] ∧
      (∀ k : Fin 16, 2 ≤ k.val → t.pz[k] = s.pz[k]) ∧ t.sh = s.sh ∧ t.px = s.px ∧ t.py = s.py

/-- A2B: PZ[0] = (A + r) ⊕ r for every draw, PZ[1] = r, RNGCNT is 1 (41_secure_adders.md R105, R122). -/
def Obligations.A2bClosedForm : Prop :=
  ∀ s : State, Ready .a2b s →
    ∃ t, exec .a2b s = .next t ∧ Completed 1 s t ∧
      t.pz[0] = (s.px[0] + s.px[1]) ^^^ s.px[1] ∧ t.pz[1] = s.px[1] ∧
      (∀ k : Fin 16, 2 ≤ k.val → t.pz[k] = s.pz[k]) ∧ t.sh = s.sh ∧ t.px = s.px ∧ t.py = s.py

/-- The round trip B2A then A2B, each with a draw of its own (95_test_vectors.md S1). -/
def Obligations.B2aThenA2bIsIdentity : Prop := ∀ x r g g' : Word, a2b (b2a x r g) r g' = x

/-! ### Masking and the masked permutation -/

/-- MASK: rows 1..d−1 are the draws, rows and words ascending, and the masked state's value is the old row 0; RNGCNT is
(d−1)·2nb; other words and rows are unchanged (42_masked_permutation.md R141). -/
def Obligations.MaskSplitsRowZero : Prop :=
  ∀ (nb : BitVec 2) (d : BitVec 5) (s : State), Ready (.mask nb d) s →
    ∃ t, exec (.mask nb d) s = .next t ∧ Completed ((d.toNat - 1) * (2 * branches nb)) s t ∧
      (∀ k w : Fin 16, 1 ≤ k.val → k.val < d.toNat → w.val < rowLen nb →
        t.sh[k][w] = s.got.getD ((k.val - 1) * rowLen nb + w.val) 0#32) ∧
      (∀ w : Fin 16, w.val < rowLen nb → maskedWord d.toNat t w = s.sh[0][w]) ∧
      (∀ k w : Fin 16, d.toNat ≤ k.val ∨ rowLen nb ≤ w.val → t.sh[k][w] = s.sh[k][w]) ∧
      t.px = s.px ∧ t.py = s.py ∧ t.pz = s.pz

/-- UNMASK: row 0 is the masked state's value, rows 1..d−1 are zero in its words; other words and rows are unchanged
(42_masked_permutation.md R142). -/
def Obligations.UnmaskRecombinesIntoRowZero : Prop :=
  ∀ (nb : BitVec 2) (d : BitVec 5) (s : State), Ready (.unmask nb d) s →
    ∃ t, exec (.unmask nb d) s = .next t ∧ Completed 0 s t ∧
      (∀ w : Fin 16, w.val < rowLen nb → t.sh[0][w] = maskedWord d.toNat s w) ∧
      (∀ k w : Fin 16, 1 ≤ k.val → k.val < d.toNat → w.val < rowLen nb → t.sh[k][w] = 0#32) ∧
      (∀ k w : Fin 16, d.toNat ≤ k.val ∨ rowLen nb ≤ w.val → t.sh[k][w] = s.sh[k][w]) ∧
      t.px = s.px ∧ t.py = s.py ∧ t.pz = s.pz

/-- Masking then unmasking returns the state, for all orders and every draw sequence (42_masked_permutation.md R142;
95_test_vectors.md S6). -/
def Obligations.MaskThenUnmaskIsIdentity : Prop :=
  ∀ (nb : BitVec 2) (d : BitVec 5) (s t u : State),
    Ready (.mask nb d) s → exec (.mask nb d) s = .next t → Ready (.unmask nb d) u → u.sh = t.sh →
    ∃ v, exec (.unmask nb d) u = .next v ∧
      (∀ w : Fin 16, w.val < rowLen nb → v.sh[0][w] = s.sh[0][w]) ∧
      (∀ k w : Fin 16, 1 ≤ k.val → k.val < d.toNat → w.val < rowLen nb → v.sh[k][w] = 0#32)

/-- MPERMUTE, every scheme: for every draw sequence the value of the masked state after is Permute of the value before;
RNGCNT is steps·nb·4·A(SCHEME, d); other words and rows are unchanged (42_masked_permutation.md R147-R153). -/
def Obligations.MpermuteComputesPermuteOnTheValue : Prop :=
  ∀ (sch : Scheme) (nb : BitVec 2) (full : Bool) (d : BitVec 5) (s : State),
    Ready (mpermuteOf sch nb full d) s →
    ∃ t, exec (mpermuteOf sch nb full d) s = .next t ∧
      Completed (steps nb full * branches nb * 4 * adderDraws d.toNat sch) s t ∧
      (∀ w : Fin 16, w.val < rowLen nb → maskedWord d.toNat t w =
        (permuteWords (steps nb full) ((List.ofFn (maskedWord d.toNat s)).take (rowLen nb))).getD w.val 0#32) ∧
      (∀ k w : Fin 16, d.toNat ≤ k.val ∨ rowLen nb ≤ w.val → t.sh[k][w] = s.sh[k][w]) ∧
      t.px = s.px ∧ t.py = s.py ∧ t.pz = s.pz

/-- MPERMUTE's rows after depend on nothing but the same rows' words before and the RNG words: not on other rows or
words, operand registers, flags, or the build (40_permutation.md R95, 42_masked_permutation.md R147). -/
def Obligations.MpermuteReadsOnlyItsRows : Prop :=
  ∀ (sch : Scheme) (nb : BitVec 2) (full : Bool) (d : BitVec 5) (s1 s2 : State),
    Ready (mpermuteOf sch nb full d) s1 → Ready (mpermuteOf sch nb full d) s2 → s1.got = s2.got →
    (∀ k w : Fin 16, k.val < d.toNat → w.val < rowLen nb → s1.sh[k][w] = s2.sh[k][w]) →
    ∃ t1 t2, exec (mpermuteOf sch nb full d) s1 = .next t1 ∧ exec (mpermuteOf sch nb full d) s2 = .next t2 ∧
      ∀ k w : Fin 16, k.val < d.toNat → w.val < rowLen nb → t1.sh[k][w] = t2.sh[k][w]

/-! ### Frames -/

/-- The frame of the primitive commands SECAND, MADD (five schemes), B2A and A2B, whatever their step does: SH, PX and
PY and the PZ registers from the order on are unchanged (41_secure_adders.md R115-R122). -/
def Obligations.PrimitiveCommandsWriteOnlyPz : Prop :=
  ∀ (i : Instr) (d : Nat) (s t : State),
    (∃ o : BitVec 5, d = o.toNat ∧ (i = .secand o ∨ ∃ sch, i = maddOf sch o)) ∨ (d = 2 ∧ (i = .b2a ∨ i = .a2b)) →
    exec i s = .next t →
    t.sh = s.sh ∧ t.px = s.px ∧ t.py = s.py ∧ ∀ k : Fin 16, d ≤ k.val → t.pz[k] = s.pz[k]

/-- The frame of PERMUTE (order 1: row 0), MPERMUTE (five schemes), MASK and UNMASK, whatever their step does: PX, PY,
PZ, the rows from the order on and the words from 2nb on are unchanged (10_state.md R21). -/
def Obligations.ShareCommandsWriteOnlyTheirRows : Prop :=
  ∀ (i : Instr) (nb : BitVec 2) (d : Nat) (s t : State),
    (d = 1 ∧ ∃ f, i = .permute nb f) ∨
      (∃ o : BitVec 5, d = o.toNat ∧ (i = .mask nb o ∨ i = .unmask nb o ∨ ∃ sch f, i = mpermuteOf sch nb f o)) →
    exec i s = .next t →
    t.px = s.px ∧ t.py = s.py ∧ t.pz = s.pz ∧
      ∀ k w : Fin 16, d ≤ k.val ∨ rowLen nb ≤ w.val → t.sh[k][w] = s.sh[k][w]

/-- The frame of NOP, whatever its step does: no data register (40_permutation.md R92); and of every command, whatever
its step does: CMD, CTRL, OVR, WBUSY, BUSERR, the build, the schedule, the bus's answer and the count of free values
(60_exceptions.md R163, 70_reset_and_hazards.md R183; the last four are the model's fields, logs 1, 2, 5, 6). -/
def Obligations.CommandsKeepTheHostSide : Prop :=
  ∀ (i : Instr) (s t : State), exec i s = .next t → SameHostSide s t ∧ (i = .nop → SameData s t)

/-! ### The window -/

/-- A misaligned, narrow or reserved access and a write to a read-only register, BUSY or not: an error response,
BUSERR set, nothing else (20_memory.md R44, R45, R46, R47), but for the model's count of free values (log 5). That a narrow
write to STATUS is among them is the model's reading of R45 and R165 (b) against 10_state.md R27 (log 20). -/
def Obligations.BadAccessSetsOnlyBuserr : Prop :=
  ∀ (s : State) (x : Txn) (rest : List Event), s.sched = .bus x :: rest → specBusError s.cfg.dmax x →
    ∃ r f, BusResp.isError r = true ∧
      step s = .next { s with sched := rest, resp := r, free := f, status := { s.status with buserr := true } }

/-- A bus error is answered exactly when the offset is misaligned or reserved, the access narrow, or the written
register read-only; any other transaction leaves BUSERR as it was, unless it is a write to STATUS (60_exceptions.md R165).
That a narrow write to STATUS is an error is the model's reading of R165 (b) against 10_state.md R27 (log 20). -/
def Obligations.BusErrorExactlyOnBadAccess : Prop :=
  ∀ (s t : State) (x : Txn) (rest : List Event), s.sched = .bus x :: rest → step s = .next t →
    (BusResp.isError t.resp = true ↔ specBusError s.cfg.dmax x) ∧
      (¬ specBusError s.cfg.dmax x → ¬ (x.off.toNat = 0x004 ∧ ∃ v, x.access = .write v) →
        t.status.buserr = s.status.buserr)

/-- What every offset of the map reads as (20_memory.md R41): CMD, STATUS, CTRL, ID and PARAM always, RNGCNT and the data
registers while idle; a read changes nothing but the bus's answer. -/
def Obligations.ReadsReturnTheRegister : Prop :=
  ∀ (s : State) (off : Nat) (rest : List Event), s.sched = hostRd off :: rest →
    (∀ v, (off = 0x000 ∧ v = s.cmd) ∨ (off = 0x004 ∧ v = statusWord s.status) ∨
        (off = 0x008 ∧ v = BitVec.ofNat 32 s.ie.toNat) ∨ (off = 0x00C ∧ v = 0x53504B4C#32) ∨
        (off = 0x010 ∧ v = BitVec.ofNat 32 (0x1F00 + s.cfg.dmax)) →
      step s = .next { s with sched := rest, resp := .read v }) ∧
    (∀ v, s.status.busy = false →
      (off = 0x014 ∧ v = s.rngcnt) ∨
        (∃ k : Fin 16, k.val < s.cfg.dmax ∧
          ((off = 0x040 + 4 * k.val ∧ v = s.px[k]) ∨ (off = 0x080 + 4 * k.val ∧ v = s.py[k]) ∨
            (off = 0x0C0 + 4 * k.val ∧ v = s.pz[k]) ∨
            ∃ w : Fin 16, off = 0x100 + 64 * k.val + 4 * w.val ∧ v = s.sh[k][w])) →
      step s = .next { s with sched := rest, resp := .read v })

/-- A read not answered with a bus error has no side effect: only the bus's answer and the model's count of free values
may differ, BUSY or not (20_memory.md R48; logs 5, 6). -/
def Obligations.ReadsHaveNoSideEffect : Prop :=
  ∀ (s : State) (x : Txn) (rest : List Event), s.sched = .bus x :: rest → x.access = .read →
    ¬ specBusError s.cfg.dmax x →
    ∃ v f, step s = .next { s with sched := rest, resp := .read v, free := f }

/-- A write to PX, PY or SH while idle stores the word in that register and nowhere else (20_memory.md R48, R49). -/
def Obligations.IdleDataWritesStore : Prop :=
  ∀ (s : State) (k w : Fin 16) (v : Word) (rest : List Event),
    s.status.busy = false → k.val < s.cfg.dmax →
    (s.sched = hostWr (0x040 + 4 * k.val) v :: rest →
      step s = .next { s with sched := rest, resp := .written, px := s.px.set k v }) ∧
    (s.sched = hostWr (0x080 + 4 * k.val) v :: rest →
      step s = .next { s with sched := rest, resp := .written, py := s.py.set k v }) ∧
    (s.sched = hostWr (0x100 + 64 * k.val + 4 * w.val) v :: rest →
      step s = .next { s with sched := rest, resp := .written, sh := s.sh.set k (s.sh[k].set w v) })

/-- A write to PX, PY or SH while BUSY is dropped: WBUSY set, an OK response, nothing else (20_memory.md R49). -/
def Obligations.BusyDataWritesAreDropped : Prop :=
  ∀ (s : State) (off k w : Nat) (v : Word) (rest : List Event),
    s.status.busy = true → k < s.cfg.dmax → w < 16 →
    off = 0x040 + 4 * k ∨ off = 0x080 + 4 * k ∨ off = 0x100 + 64 * k + 4 * w →
    s.sched = hostWr off v :: rest →
    step s = .next { s with sched := rest, resp := .written, status := { s.status with wbusy := true } }

/-- A CMD write while BUSY is an overrun: the word is dropped, OVR set, the response OK, and nothing else changes
(60_exceptions.md R166). -/
def Obligations.BusyCommandWriteIsAnOverrun : Prop :=
  ∀ (s : State) (w : Word) (rest : List Event), s.status.busy = true → s.sched = hostWr 0x000 w :: rest →
    step s = .next { s with sched := rest, resp := .written, status := { s.status with ovr := true } }

/-- A write to STATUS, BUSY or not, clears exactly the write-one-to-clear bits written 1, ERR with ERRCODE, and nothing
else (60_exceptions.md R167, 10_state.md R27). -/
def Obligations.StatusWriteAcknowledges : Prop :=
  ∀ (s : State) (v : Word) (rest : List Event), s.sched = hostWr 0x004 v :: rest →
    ∃ f : Status, step s = .next { s with sched := rest, resp := .written, status := f } ∧
      f.busy = s.status.busy ∧
      (v.getLsbD 1 = true → f.done = false) ∧ (v.getLsbD 1 = false → f.done = s.status.done) ∧
      (v.getLsbD 2 = true → f.err = false ∧ f.errcode = 0#4) ∧
      (v.getLsbD 2 = false → f.err = s.status.err ∧ f.errcode = s.status.errcode) ∧
      (v.getLsbD 8 = true → f.ovr = false) ∧ (v.getLsbD 8 = false → f.ovr = s.status.ovr) ∧
      (v.getLsbD 9 = true → f.wbusy = false) ∧ (v.getLsbD 9 = false → f.wbusy = s.status.wbusy) ∧
      (v.getLsbD 10 = true → f.buserr = false) ∧ (v.getLsbD 10 = false → f.buserr = s.status.buserr)

/-- The sticky bits OVR, WBUSY and BUSERR are cleared only by a write to STATUS and by reset (60_exceptions.md R167). -/
def Obligations.StickyBitsOutliveOtherSteps : Prop :=
  ∀ s t : State, step s = .next t →
    (∀ x, s.sched.head? ≠ some (.rst x)) → (∀ x v, s.sched.head? = some (.bus x) → x.access = .write v → x.off ≠ 0x004#12) →
    (s.status.ovr = true → t.status.ovr = true) ∧ (s.status.wbusy = true → t.status.wbusy = true) ∧
      (s.status.buserr = true → t.status.buserr = true)

/-- CTRL holds IE in bit 0 only, BUSY or not: a write stores bit 0 and ignores the rest, bits 31:1 read 0, and it is 0
after reset (10_state.md R28). -/
def Obligations.CtrlHoldsOnlyIe : Prop :=
  (∀ (s : State) (v : Word) (rest : List Event), s.sched = hostWr 0x008 v :: rest →
    step s = .next { s with sched := rest, resp := .written, ie := v.getLsbD 0 }) ∧
  (∀ (s : State) (rest : List Event), s.sched = hostRd 0x008 :: rest →
    step s = .next { s with sched := rest, resp := .read (if s.ie then 1#32 else 0#32) }) ∧
  (∀ c : Config, (State.resetOf c).ie = false)

/-- ID reads 0x53504B4C, PARAM reads DMAX in bits 4:0, 0 in 7:5, 0b11111 in 12:8 and 0 above (0x00001F08 at DMAX = 8),
BUSY or not, and a write to either is a bus error (10_state.md R29, R30). -/
def Obligations.IdAndParamAreReadOnlyConstants : Prop :=
  (∀ (s : State) (rest : List Event), s.sched = hostRd 0x00C :: rest →
    step s = .next { s with sched := rest, resp := .read 0x53504B4C#32 }) ∧
  (∀ (s : State) (rest : List Event), s.sched = hostRd 0x010 :: rest →
    ∃ v : Word, step s = .next { s with sched := rest, resp := .read v } ∧
      (v.extractLsb' 0 5).toNat = s.cfg.dmax ∧ v.extractLsb' 5 3 = 0#3 ∧ v.extractLsb' 8 5 = 31#5 ∧
      v.extractLsb' 13 19 = 0#19 ∧ (s.cfg.dmax = 8 → v = 0x00001F08#32)) ∧
  (∀ (s : State) (off : Nat) (v : Word) (rest : List Event), off = 0x00C ∨ off = 0x010 →
    s.sched = hostWr off v :: rest →
    step s = .next { s with sched := rest, resp := .writeError, status := { s.status with buserr := true } })

/-- The places of STATUS's fields; bits 3 and 31:11 read 0 (10_state.md R27). -/
def Obligations.StatusFieldsHaveTheirPlaces : Prop :=
  ∀ (f : Status) (k : Nat), k < 32 → (statusWord f).getLsbD k =
    if k = 0 then f.busy else if k = 1 then f.done else if k = 2 then f.err
    else if 4 ≤ k ∧ k ≤ 7 then f.errcode.getLsbD (k - 4)
    else if k = 8 then f.ovr else if k = 9 then f.wbusy else if k = 10 then f.buserr else false

/-! ### Reset, RNG, interrupt -/

/-- The state after reset, for every build (10_state.md R36). -/
def Obligations.ResetValuesAreTheSpecs : Prop :=
  ∀ c : Config,
    (∀ k : Fin 16, (State.resetOf c).px[k] = 0#32 ∧ (State.resetOf c).py[k] = 0#32 ∧ (State.resetOf c).pz[k] = 0#32 ∧
      ∀ w : Fin 16, (State.resetOf c).sh[k][w] = 0#32) ∧
    (State.resetOf c).cmd = 0#32 ∧ statusWord (State.resetOf c).status = 0#32 ∧
    ctrlWord (State.resetOf c).ie = 0#32 ∧ (State.resetOf c).rngcnt = 0#32 ∧ (State.resetOf c).status.busy = false ∧
    (State.resetOf c).got = [] ∧ irq (State.resetOf c) = false ∧ rngReady (State.resetOf c) = false ∧
    readReg .id (State.resetOf c) = some 0x53504B4C#32 ∧
    readReg .param (State.resetOf c) = some (BitVec.ofNat 32 (0x1F00 + c.dmax)) ∧
    rcon = [0xB7E15162#32, 0xBF715880#32, 0x38B4DA56#32, 0x324E7738#32,
            0xBB1185EB#32, 0x4F7C7B57#32, 0xCFBFA1C8#32, 0xC2B3293D#32]

/-- RST, from every state, BUSY or not, with or without a transaction over it: everything takes its reset value, a
running command and its draws are lost, and the transaction has no effect (70_reset_and_hazards.md R180). The build,
the schedule and the count of free values are no state of the block (logs 1, 2, 5), and the answer to the transaction is
of a kind of the model's own (log 15). -/
def Obligations.ResetClearsEverything : Prop :=
  ∀ (s : State) (x : Option Txn) (rest : List Event), s.sched = .rst x :: rest →
    ∃ r f, BusResp.isError r = false ∧
      step s = .next { State.resetOf s.cfg with sched := rest, resp := r, free := f }

/-- A word offered on the RNG port is consumed, as the running command's next, exactly when that command still needs
one; else nothing changes (10_state.md R35): a word offered with RNG_READY low is not consumed (log 4). -/
def Obligations.RngWordIsConsumedWhenNeeded : Prop :=
  ∀ (s : State) (w : Word) (rest : List Event), s.sched = .rng w :: rest →
    (∀ i, s.status.busy = true → decode s.cmd = .ok i →
      step s = .next (if s.got.length < draws i then { s with sched := rest, got := s.got ++ [w] }
                      else { s with sched := rest })) ∧
    (s.status.busy = false → step s = .next { s with sched := rest })

/-- The interrupt line (60_exceptions.md R168): IE after every completion and after every rejection, of a CMD write of any
word the checks reject as of an ill-formed command; low after every acceptance and after a reset; setting IE while DONE = 1
raises it and clearing DONE or IE lowers it. -/
def Obligations.InterruptFollowsDone : Prop :=
  (∀ (i : Instr) (s : State), Ready i s → ∃ t, exec i s = .next t ∧ irq t = s.ie) ∧
  (∀ (s : State) (w : Word) (rest : List Event), s.status.busy = false → s.sched = hostWr 0x000 w :: rest →
    ∃ t, step s = .next t ∧ irq t = ((specReject s.cfg.dmax w).isSome && s.ie)) ∧
  (∀ (i : Instr) (s : State), s.status.busy = false →
    ∃ t, exec i s = .next t ∧ irq t = (!i.wellFormed s.cfg.dmax && s.ie)) ∧
  (∀ (s : State) (v : Word) (rest : List Event), s.sched = hostWr 0x008 v :: rest →
    ∃ t, step s = .next t ∧ irq t = (v.getLsbD 0 && s.status.done)) ∧
  (∀ (s : State) (v : Word) (rest : List Event), s.sched = hostWr 0x004 v :: rest →
    ∃ t, step s = .next t ∧ irq t = (irq s && !v.getLsbD 1)) ∧
  (∀ (s : State) (x : Option Txn) (rest : List Event), s.sched = .rst x :: rest →
    ∃ t, step s = .next t ∧ irq t = false)

/-! ### Invariants and whole-machine rules -/

/-- The invariant holds right after reset, for every build. -/
def Obligations.InvariantHoldsAtReset : Prop := ∀ c : Config, (State.resetOf c).Inv

/-- Every step, over whatever event, keeps the invariant: a BUSY engine holds an accepted command with at most its
words and clear DONE, ERR and RNGCNT; ERRCODE is a code of R161 exactly when ERR is set; the slots a build lacks stay
empty, the model's form of "reserved" (10_state.md R27, R31, R32; 20_memory.md R41; 60_exceptions.md R161; logs 8, 10,
12). -/
def Obligations.StepKeepsTheInvariant : Prop := ∀ s t : State, s.Inv → step s = .next t → t.Inv

/-- No step of a run stops: the block has no traps and no command fails after acceptance (60_exceptions.md R160,
R164). -/
def Obligations.NoStepStops : Prop := ∀ s : State, s.Inv → ∃ t, step s = .next t

/-- While the engine stays BUSY no step, whatever the host writes, changes a data register, CMD or RNGCNT: the command
completes on the state it was accepted on (70_reset_and_hazards.md R183, 20_memory.md R49; RNGCNT's field: log 8). -/
def Obligations.BusyEngineOwnsTheData : Prop :=
  ∀ s t : State, s.status.busy = true → step s = .next t → t.status.busy = true →
    SameData s t ∧ t.cmd = s.cmd ∧ t.rngcnt = s.rngcnt ∧ ∃ ws, t.got = s.got ++ ws

/-- No step changes the build (00_scope.md R5), which the model keeps in State (log 1). -/
def Obligations.BuildNeverChanges : Prop := ∀ s t : State, step s = .next t → t.cfg = s.cfg
end

