-- ==== Sys2Proof/Laws/State.lean ====
section
/-! SUPPORT. One lemma per field per named update, so that no later proof unfolds a record update. -/

namespace Sys2Proof.Machine

/-! ### reject -/

@[simp] theorem reject_cfg (c : CmdError) (s : State) : (reject c s).cfg = s.cfg := rfl
@[simp] theorem reject_sh (c : CmdError) (s : State) : (reject c s).sh = s.sh := rfl
@[simp] theorem reject_px (c : CmdError) (s : State) : (reject c s).px = s.px := rfl
@[simp] theorem reject_py (c : CmdError) (s : State) : (reject c s).py = s.py := rfl
@[simp] theorem reject_pz (c : CmdError) (s : State) : (reject c s).pz = s.pz := rfl
@[simp] theorem reject_cmd (c : CmdError) (s : State) : (reject c s).cmd = s.cmd := rfl
@[simp] theorem reject_status (c : CmdError) (s : State) : (reject c s).status = rejectedStatus c s.status := rfl
@[simp] theorem reject_ie (c : CmdError) (s : State) : (reject c s).ie = s.ie := rfl
@[simp] theorem reject_rngcnt (c : CmdError) (s : State) : (reject c s).rngcnt = s.rngcnt := rfl
@[simp] theorem reject_got (c : CmdError) (s : State) : (reject c s).got = s.got := rfl
@[simp] theorem reject_sched (c : CmdError) (s : State) : (reject c s).sched = s.sched := rfl
@[simp] theorem reject_resp (c : CmdError) (s : State) : (reject c s).resp = s.resp := rfl
@[simp] theorem reject_free (c : CmdError) (s : State) : (reject c s).free = s.free := rfl

/-! ### accept -/

@[simp] theorem accept_cfg (s : State) : (accept s).cfg = s.cfg := rfl
@[simp] theorem accept_sh (s : State) : (accept s).sh = s.sh := rfl
@[simp] theorem accept_px (s : State) : (accept s).px = s.px := rfl
@[simp] theorem accept_py (s : State) : (accept s).py = s.py := rfl
@[simp] theorem accept_pz (s : State) : (accept s).pz = s.pz := rfl
@[simp] theorem accept_cmd (s : State) : (accept s).cmd = s.cmd := rfl
@[simp] theorem accept_status (s : State) : (accept s).status = acceptedStatus s.status := rfl
@[simp] theorem accept_ie (s : State) : (accept s).ie = s.ie := rfl
@[simp] theorem accept_rngcnt (s : State) : (accept s).rngcnt = 0#32 := rfl
@[simp] theorem accept_got (s : State) : (accept s).got = [] := rfl
@[simp] theorem accept_sched (s : State) : (accept s).sched = s.sched := rfl
@[simp] theorem accept_resp (s : State) : (accept s).resp = s.resp := rfl
@[simp] theorem accept_free (s : State) : (accept s).free = s.free := rfl

/-! ### complete -/

@[simp] theorem complete_cfg (n : Nat) (s : State) : (complete n s).cfg = s.cfg := rfl
@[simp] theorem complete_sh (n : Nat) (s : State) : (complete n s).sh = s.sh := rfl
@[simp] theorem complete_px (n : Nat) (s : State) : (complete n s).px = s.px := rfl
@[simp] theorem complete_py (n : Nat) (s : State) : (complete n s).py = s.py := rfl
@[simp] theorem complete_pz (n : Nat) (s : State) : (complete n s).pz = s.pz := rfl
@[simp] theorem complete_cmd (n : Nat) (s : State) : (complete n s).cmd = s.cmd := rfl
@[simp] theorem complete_status (n : Nat) (s : State) : (complete n s).status = completedStatus s.status := rfl
@[simp] theorem complete_ie (n : Nat) (s : State) : (complete n s).ie = s.ie := rfl
@[simp] theorem complete_rngcnt (n : Nat) (s : State) : (complete n s).rngcnt = BitVec.ofNat 32 n := rfl
@[simp] theorem complete_got (n : Nat) (s : State) : (complete n s).got = [] := rfl
@[simp] theorem complete_sched (n : Nat) (s : State) : (complete n s).sched = s.sched := rfl
@[simp] theorem complete_resp (n : Nat) (s : State) : (complete n s).resp = s.resp := rfl
@[simp] theorem complete_free (n : Nat) (s : State) : (complete n s).free = s.free := rfl

/-! ### respond -/

@[simp] theorem respond_cfg (r : BusResp) (s : State) : (respond r s).cfg = s.cfg := rfl
@[simp] theorem respond_sh (r : BusResp) (s : State) : (respond r s).sh = s.sh := rfl
@[simp] theorem respond_px (r : BusResp) (s : State) : (respond r s).px = s.px := rfl
@[simp] theorem respond_py (r : BusResp) (s : State) : (respond r s).py = s.py := rfl
@[simp] theorem respond_pz (r : BusResp) (s : State) : (respond r s).pz = s.pz := rfl
@[simp] theorem respond_cmd (r : BusResp) (s : State) : (respond r s).cmd = s.cmd := rfl
@[simp] theorem respond_status (r : BusResp) (s : State) : (respond r s).status = s.status := rfl
@[simp] theorem respond_ie (r : BusResp) (s : State) : (respond r s).ie = s.ie := rfl
@[simp] theorem respond_rngcnt (r : BusResp) (s : State) : (respond r s).rngcnt = s.rngcnt := rfl
@[simp] theorem respond_got (r : BusResp) (s : State) : (respond r s).got = s.got := rfl
@[simp] theorem respond_sched (r : BusResp) (s : State) : (respond r s).sched = s.sched := rfl
@[simp] theorem respond_resp (r : BusResp) (s : State) : (respond r s).resp = r := rfl
@[simp] theorem respond_free (r : BusResp) (s : State) : (respond r s).free = s.free := rfl

/-! ### respondFree -/

@[simp] theorem respondFree_cfg (r : Word → BusResp) (s : State) : (respondFree r s).cfg = s.cfg := rfl
@[simp] theorem respondFree_sh (r : Word → BusResp) (s : State) : (respondFree r s).sh = s.sh := rfl
@[simp] theorem respondFree_px (r : Word → BusResp) (s : State) : (respondFree r s).px = s.px := rfl
@[simp] theorem respondFree_py (r : Word → BusResp) (s : State) : (respondFree r s).py = s.py := rfl
@[simp] theorem respondFree_pz (r : Word → BusResp) (s : State) : (respondFree r s).pz = s.pz := rfl
@[simp] theorem respondFree_cmd (r : Word → BusResp) (s : State) : (respondFree r s).cmd = s.cmd := rfl
@[simp] theorem respondFree_status (r : Word → BusResp) (s : State) : (respondFree r s).status = s.status := rfl
@[simp] theorem respondFree_ie (r : Word → BusResp) (s : State) : (respondFree r s).ie = s.ie := rfl
@[simp] theorem respondFree_rngcnt (r : Word → BusResp) (s : State) : (respondFree r s).rngcnt = s.rngcnt := rfl
@[simp] theorem respondFree_got (r : Word → BusResp) (s : State) : (respondFree r s).got = s.got := rfl
@[simp] theorem respondFree_sched (r : Word → BusResp) (s : State) : (respondFree r s).sched = s.sched := rfl
@[simp] theorem respondFree_resp (r : Word → BusResp) (s : State) : (respondFree r s).resp = r (Config.freeWord s.free) := rfl
@[simp] theorem respondFree_free (r : Word → BusResp) (s : State) : (respondFree r s).free = s.free + 1 := rfl

/-! ### setBuserr -/

@[simp] theorem setBuserr_cfg (s : State) : (setBuserr s).cfg = s.cfg := rfl
@[simp] theorem setBuserr_sh (s : State) : (setBuserr s).sh = s.sh := rfl
@[simp] theorem setBuserr_px (s : State) : (setBuserr s).px = s.px := rfl
@[simp] theorem setBuserr_py (s : State) : (setBuserr s).py = s.py := rfl
@[simp] theorem setBuserr_pz (s : State) : (setBuserr s).pz = s.pz := rfl
@[simp] theorem setBuserr_cmd (s : State) : (setBuserr s).cmd = s.cmd := rfl
@[simp] theorem setBuserr_status (s : State) : (setBuserr s).status = { s.status with buserr := true } := rfl
@[simp] theorem setBuserr_ie (s : State) : (setBuserr s).ie = s.ie := rfl
@[simp] theorem setBuserr_rngcnt (s : State) : (setBuserr s).rngcnt = s.rngcnt := rfl
@[simp] theorem setBuserr_got (s : State) : (setBuserr s).got = s.got := rfl
@[simp] theorem setBuserr_sched (s : State) : (setBuserr s).sched = s.sched := rfl
@[simp] theorem setBuserr_resp (s : State) : (setBuserr s).resp = s.resp := rfl
@[simp] theorem setBuserr_free (s : State) : (setBuserr s).free = s.free := rfl

/-! ### setOvr -/

@[simp] theorem setOvr_cfg (s : State) : (setOvr s).cfg = s.cfg := rfl
@[simp] theorem setOvr_sh (s : State) : (setOvr s).sh = s.sh := rfl
@[simp] theorem setOvr_px (s : State) : (setOvr s).px = s.px := rfl
@[simp] theorem setOvr_py (s : State) : (setOvr s).py = s.py := rfl
@[simp] theorem setOvr_pz (s : State) : (setOvr s).pz = s.pz := rfl
@[simp] theorem setOvr_cmd (s : State) : (setOvr s).cmd = s.cmd := rfl
@[simp] theorem setOvr_status (s : State) : (setOvr s).status = { s.status with ovr := true } := rfl
@[simp] theorem setOvr_ie (s : State) : (setOvr s).ie = s.ie := rfl
@[simp] theorem setOvr_rngcnt (s : State) : (setOvr s).rngcnt = s.rngcnt := rfl
@[simp] theorem setOvr_got (s : State) : (setOvr s).got = s.got := rfl
@[simp] theorem setOvr_sched (s : State) : (setOvr s).sched = s.sched := rfl
@[simp] theorem setOvr_resp (s : State) : (setOvr s).resp = s.resp := rfl
@[simp] theorem setOvr_free (s : State) : (setOvr s).free = s.free := rfl

/-! ### setWbusy -/

@[simp] theorem setWbusy_cfg (s : State) : (setWbusy s).cfg = s.cfg := rfl
@[simp] theorem setWbusy_sh (s : State) : (setWbusy s).sh = s.sh := rfl
@[simp] theorem setWbusy_px (s : State) : (setWbusy s).px = s.px := rfl
@[simp] theorem setWbusy_py (s : State) : (setWbusy s).py = s.py := rfl
@[simp] theorem setWbusy_pz (s : State) : (setWbusy s).pz = s.pz := rfl
@[simp] theorem setWbusy_cmd (s : State) : (setWbusy s).cmd = s.cmd := rfl
@[simp] theorem setWbusy_status (s : State) : (setWbusy s).status = { s.status with wbusy := true } := rfl
@[simp] theorem setWbusy_ie (s : State) : (setWbusy s).ie = s.ie := rfl
@[simp] theorem setWbusy_rngcnt (s : State) : (setWbusy s).rngcnt = s.rngcnt := rfl
@[simp] theorem setWbusy_got (s : State) : (setWbusy s).got = s.got := rfl
@[simp] theorem setWbusy_sched (s : State) : (setWbusy s).sched = s.sched := rfl
@[simp] theorem setWbusy_resp (s : State) : (setWbusy s).resp = s.resp := rfl
@[simp] theorem setWbusy_free (s : State) : (setWbusy s).free = s.free := rfl

/-! ### latch -/

@[simp] theorem latch_cfg (w : Word) (s : State) : (latch w s).cfg = s.cfg := rfl
@[simp] theorem latch_sh (w : Word) (s : State) : (latch w s).sh = s.sh := rfl
@[simp] theorem latch_px (w : Word) (s : State) : (latch w s).px = s.px := rfl
@[simp] theorem latch_py (w : Word) (s : State) : (latch w s).py = s.py := rfl
@[simp] theorem latch_pz (w : Word) (s : State) : (latch w s).pz = s.pz := rfl
@[simp] theorem latch_cmd (w : Word) (s : State) : (latch w s).cmd = w := rfl
@[simp] theorem latch_status (w : Word) (s : State) : (latch w s).status = s.status := rfl
@[simp] theorem latch_ie (w : Word) (s : State) : (latch w s).ie = s.ie := rfl
@[simp] theorem latch_rngcnt (w : Word) (s : State) : (latch w s).rngcnt = s.rngcnt := rfl
@[simp] theorem latch_got (w : Word) (s : State) : (latch w s).got = s.got := rfl
@[simp] theorem latch_sched (w : Word) (s : State) : (latch w s).sched = s.sched := rfl
@[simp] theorem latch_resp (w : Word) (s : State) : (latch w s).resp = .written := rfl
@[simp] theorem latch_free (w : Word) (s : State) : (latch w s).free = s.free := rfl

/-! ### setPz -/

@[simp] theorem setPz_cfg (zs : List Word) (s : State) : (setPz zs s).cfg = s.cfg := rfl
@[simp] theorem setPz_sh (zs : List Word) (s : State) : (setPz zs s).sh = s.sh := rfl
@[simp] theorem setPz_px (zs : List Word) (s : State) : (setPz zs s).px = s.px := rfl
@[simp] theorem setPz_py (zs : List Word) (s : State) : (setPz zs s).py = s.py := rfl
@[simp] theorem setPz_pz (zs : List Word) (s : State) : (setPz zs s).pz = splice zs s.pz := rfl
@[simp] theorem setPz_cmd (zs : List Word) (s : State) : (setPz zs s).cmd = s.cmd := rfl
@[simp] theorem setPz_status (zs : List Word) (s : State) : (setPz zs s).status = s.status := rfl
@[simp] theorem setPz_ie (zs : List Word) (s : State) : (setPz zs s).ie = s.ie := rfl
@[simp] theorem setPz_rngcnt (zs : List Word) (s : State) : (setPz zs s).rngcnt = s.rngcnt := rfl
@[simp] theorem setPz_got (zs : List Word) (s : State) : (setPz zs s).got = s.got := rfl
@[simp] theorem setPz_sched (zs : List Word) (s : State) : (setPz zs s).sched = s.sched := rfl
@[simp] theorem setPz_resp (zs : List Word) (s : State) : (setPz zs s).resp = s.resp := rfl
@[simp] theorem setPz_free (zs : List Word) (s : State) : (setPz zs s).free = s.free := rfl

/-! ### setShareRows -/

@[simp] theorem setShareRows_cfg (rows : List (List Word)) (s : State) : (setShareRows rows s).cfg = s.cfg := rfl
@[simp] theorem setShareRows_sh (rows : List (List Word)) (s : State) : (setShareRows rows s).sh = splice (List.zipWith splice rows s.sh.toList) s.sh := rfl
@[simp] theorem setShareRows_px (rows : List (List Word)) (s : State) : (setShareRows rows s).px = s.px := rfl
@[simp] theorem setShareRows_py (rows : List (List Word)) (s : State) : (setShareRows rows s).py = s.py := rfl
@[simp] theorem setShareRows_pz (rows : List (List Word)) (s : State) : (setShareRows rows s).pz = s.pz := rfl
@[simp] theorem setShareRows_cmd (rows : List (List Word)) (s : State) : (setShareRows rows s).cmd = s.cmd := rfl
@[simp] theorem setShareRows_status (rows : List (List Word)) (s : State) : (setShareRows rows s).status = s.status := rfl
@[simp] theorem setShareRows_ie (rows : List (List Word)) (s : State) : (setShareRows rows s).ie = s.ie := rfl
@[simp] theorem setShareRows_rngcnt (rows : List (List Word)) (s : State) : (setShareRows rows s).rngcnt = s.rngcnt := rfl
@[simp] theorem setShareRows_got (rows : List (List Word)) (s : State) : (setShareRows rows s).got = s.got := rfl
@[simp] theorem setShareRows_sched (rows : List (List Word)) (s : State) : (setShareRows rows s).sched = s.sched := rfl
@[simp] theorem setShareRows_resp (rows : List (List Word)) (s : State) : (setShareRows rows s).resp = s.resp := rfl
@[simp] theorem setShareRows_free (rows : List (List Word)) (s : State) : (setShareRows rows s).free = s.free := rfl

/-! ### rejectedStatus -/

@[simp] theorem rejectedStatus_busy (c : CmdError) (f : Status) : (rejectedStatus c f).busy = f.busy := rfl
@[simp] theorem rejectedStatus_done (c : CmdError) (f : Status) : (rejectedStatus c f).done = true := rfl
@[simp] theorem rejectedStatus_err (c : CmdError) (f : Status) : (rejectedStatus c f).err = true := rfl
@[simp] theorem rejectedStatus_errcode (c : CmdError) (f : Status) : (rejectedStatus c f).errcode = errCode c := rfl
@[simp] theorem rejectedStatus_ovr (c : CmdError) (f : Status) : (rejectedStatus c f).ovr = f.ovr := rfl
@[simp] theorem rejectedStatus_wbusy (c : CmdError) (f : Status) : (rejectedStatus c f).wbusy = f.wbusy := rfl
@[simp] theorem rejectedStatus_buserr (c : CmdError) (f : Status) : (rejectedStatus c f).buserr = f.buserr := rfl

/-! ### acceptedStatus -/

@[simp] theorem acceptedStatus_busy (f : Status) : (acceptedStatus f).busy = true := rfl
@[simp] theorem acceptedStatus_done (f : Status) : (acceptedStatus f).done = false := rfl
@[simp] theorem acceptedStatus_err (f : Status) : (acceptedStatus f).err = false := rfl
@[simp] theorem acceptedStatus_errcode (f : Status) : (acceptedStatus f).errcode = 0#4 := rfl
@[simp] theorem acceptedStatus_ovr (f : Status) : (acceptedStatus f).ovr = f.ovr := rfl
@[simp] theorem acceptedStatus_wbusy (f : Status) : (acceptedStatus f).wbusy = f.wbusy := rfl
@[simp] theorem acceptedStatus_buserr (f : Status) : (acceptedStatus f).buserr = f.buserr := rfl

/-! ### completedStatus -/

@[simp] theorem completedStatus_busy (f : Status) : (completedStatus f).busy = false := rfl
@[simp] theorem completedStatus_done (f : Status) : (completedStatus f).done = true := rfl
@[simp] theorem completedStatus_err (f : Status) : (completedStatus f).err = f.err := rfl
@[simp] theorem completedStatus_errcode (f : Status) : (completedStatus f).errcode = f.errcode := rfl
@[simp] theorem completedStatus_ovr (f : Status) : (completedStatus f).ovr = f.ovr := rfl
@[simp] theorem completedStatus_wbusy (f : Status) : (completedStatus f).wbusy = f.wbusy := rfl
@[simp] theorem completedStatus_buserr (f : Status) : (completedStatus f).buserr = f.buserr := rfl

/-! ### acknowledge -/

@[simp] theorem acknowledge_busy (w : Word) (f : Status) : (acknowledge w f).busy = f.busy := rfl
@[simp] theorem acknowledge_done (w : Word) (f : Status) : (acknowledge w f).done = (f.done && !w.getLsbD 1) := rfl
@[simp] theorem acknowledge_err (w : Word) (f : Status) : (acknowledge w f).err = (f.err && !w.getLsbD 2) := rfl
@[simp] theorem acknowledge_errcode (w : Word) (f : Status) : (acknowledge w f).errcode = (if w.getLsbD 2 then 0#4 else f.errcode) := rfl
@[simp] theorem acknowledge_ovr (w : Word) (f : Status) : (acknowledge w f).ovr = (f.ovr && !w.getLsbD 8) := rfl
@[simp] theorem acknowledge_wbusy (w : Word) (f : Status) : (acknowledge w f).wbusy = (f.wbusy && !w.getLsbD 9) := rfl
@[simp] theorem acknowledge_buserr (w : Word) (f : Status) : (acknowledge w f).buserr = (f.buserr && !w.getLsbD 10) := rfl

end Sys2Proof.Machine
end

