-- ==== Sys2Proof/Laws/Bits.lean ====
section
/-! SUPPORT. What the bit and register-file helpers do, once. -/

namespace Sys2Proof.Machine

/-! ### splice -/

theorem splice_toList {α : Type} {n : Nat} (vs : List α) (v : Vector α n) :
    (splice vs v).toList = vs.take n ++ v.toList.drop vs.length := rfl

/-- A register that a splice reaches holds the list's value. -/
theorem splice_getElem_lt {α : Type} {n : Nat} (vs : List α) (v : Vector α n) (k : Nat) (hk : k < n)
    (h : k < vs.length) : (splice vs v)[k] = vs[k] := by
  have : (splice vs v)[k] = (splice vs v).toList[k]'(by simpa using hk) := by simp
  rw [this]
  simp only [splice_toList]
  rw [List.getElem_append_left (by simp; omega)]
  simp

/-- A register past the list keeps its value. -/
theorem splice_getElem_ge {α : Type} {n : Nat} (vs : List α) (v : Vector α n) (k : Nat) (hk : k < n)
    (h : vs.length ≤ k) : (splice vs v)[k] = v[k] := by
  have : (splice vs v)[k] = (splice vs v).toList[k]'(by simpa using hk) := by simp
  rw [this]
  simp only [splice_toList]
  rw [List.getElem_append_right (by simp; omega)]
  simp only [List.length_take, List.getElem_drop, Vector.getElem_toList]
  congr 1
  omega

/-! ### xorAll -/

@[simp] theorem xorAll_nil {w : Nat} : xorAll ([] : List (BitVec w)) = 0#w := rfl

@[simp] theorem xorAll_cons {w : Nat} (v : BitVec w) (vs : List (BitVec w)) :
    xorAll (v :: vs) = v ^^^ xorAll vs := rfl

theorem xorAll_append {w : Nat} (a b : List (BitVec w)) : xorAll (a ++ b) = xorAll a ^^^ xorAll b := by
  induction a with
  | nil => simp
  | cons v vs ih => simp [ih, BitVec.xor_assoc]

/-- Share-wise XOR adds the values. -/
theorem xorAll_xorShares {w : Nat} (a b : List (BitVec w)) (h : a.length = b.length) :
    xorAll (xorShares a b) = xorAll a ^^^ xorAll b := by
  induction a generalizing b with
  | nil => cases b with
    | nil => simp [xorShares]
    | cons => simp at h
  | cons v vs ih => cases b with
    | nil => simp at h
    | cons u us =>
      have := ih us (by simpa using h)
      simp only [xorShares, List.zipWith_cons_cons, xorAll_cons] at this ⊢
      rw [this]
      ac_rfl

/-- AND distributes over XOR. -/
theorem and_xor_left {w : Nat} (a b c : BitVec w) : a &&& (b ^^^ c) = (a &&& b) ^^^ (a &&& c) := by
  apply BitVec.eq_of_getLsbD_eq
  intro i _
  simp [Bool.and_xor_distrib_left]

/-- AND distributes over XOR. -/
theorem and_xor_right {w : Nat} (a b c : BitVec w) : (a ^^^ b) &&& c = (a &&& c) ^^^ (b &&& c) := by
  apply BitVec.eq_of_getLsbD_eq
  intro i _
  simp [Bool.and_xor_distrib_right]

/-- AND with a constant distributes over the shares. -/
theorem xorAll_and_left {w : Nat} (x : BitVec w) (vs : List (BitVec w)) :
    xorAll (vs.map (x &&& ·)) = x &&& xorAll vs := by
  induction vs with
  | nil => simp
  | cons v vs ih => simp [ih, and_xor_left]

@[simp] theorem xorAll_replicate_zero {w : Nat} (n : Nat) : xorAll (List.replicate n 0#w) = 0#w := by
  induction n with
  | zero => rfl
  | succ n ih => simp [List.replicate_succ, ih]

@[simp] theorem xorShares_length {w : Nat} (a b : List (BitVec w)) :
    (xorShares a b).length = min a.length b.length := by simp [xorShares]

/-! ### rotr -/

@[simp] theorem rotr_zero (a : Word) : rotr a 0 = a := by simp [rotr]

/-- Rotation is linear: it may be applied share by share (42_masked_permutation.md R144). -/
theorem rotr_xor (a b : Word) (n : Nat) : rotr (a ^^^ b) n = rotr a n ^^^ rotr b n := by
  unfold rotr
  split
  · rfl
  · simp only [BitVec.ushiftRight_xor_distrib, BitVec.shiftLeft_xor_distrib]
    apply BitVec.eq_of_getLsbD_eq
    intro i hi
    simp only [BitVec.getLsbD_or, BitVec.getLsbD_xor, BitVec.getLsbD_ushiftRight, BitVec.getLsbD_shiftLeft]
    by_cases h : n + i < 32
    · have : i < 32 - n := by omega
      simp [this]
    · have h1 : a.getLsbD (n + i) = false := BitVec.getLsbD_of_ge a _ (by omega)
      have h2 : b.getLsbD (n + i) = false := BitVec.getLsbD_of_ge b _ (by omega)
      simp [h1, h2]

/-! ### setBit -/

/-- Writing bit k changes bit k and no other. -/
theorem getLsbD_setBit (v : Word) (k : Nat) (b : BitVec 1) (hk : k < 32) (i : Nat) (hi : i < 32) :
    (setBit v k b).getLsbD i = if i = k then b.getLsbD 0 else v.getLsbD i := by
  simp only [setBit, BitVec.getLsbD_or, BitVec.getLsbD_and, BitVec.getLsbD_not, BitVec.getLsbD_twoPow,
    BitVec.getLsbD_shiftLeft, BitVec.getLsbD_setWidth]
  by_cases h : i = k
  · subst h
    simp [hi]
  · have hne : k ≠ i := fun e => h e.symm
    rcases Nat.lt_or_gt_of_ne h with hlt | hgt
    · simp [hi, hne, h, hlt]
    · have : b.getLsbD (i - k) = false := BitVec.getLsbD_of_ge b _ (by omega)
      simp [hi, hne, h, this]

end Sys2Proof.Machine
end

