-- ==== Sys2Proof/Laws/Operands.lean ====
section
/-! SUPPORT. The checks and operand registers. -/

namespace Sys2Proof.Machine

theorem checkNb_none (nb : BitVec 2) : checkNb nb = none ↔ Instr.wfNb nb = true := by
  revert nb; decide

theorem checkOrder_none (dmax : Nat) (d : BitVec 5) :
    checkOrder dmax d.toNat = none ↔ Instr.wfOrder dmax d = true := by
  simp only [checkOrder, Instr.wfOrder, Bool.and_eq_true, decide_eq_true_eq]
  split <;> simp <;> omega

theorem orElse_none {α : Type} (a b : Option α) : (a <|> b) = none ↔ a = none ∧ b = none := by
  cases a <;> simp

/-- A scheme's order check passes exactly on the orders the scheme accepts (41_secure_adders.md R114). -/
theorem checkSchemeOrder_none (c : Config) (d : BitVec 5) (sch : Scheme) :
    checkSchemeOrder c.dmax d.toNat sch = none ↔ Instr.wfScheme c.dmax d sch = true := by
  have two : ∀ n : Nat, n < 32 → (d = BitVec.ofNat 5 n ↔ d.toNat = n) := by
    intro n hn
    constructor
    · intro h; simp [h]; omega
    · intro h; exact BitVec.eq_of_toNat_eq (by simp [h]; omega)
  have hmax := c.legal
  have h2 := two 2 (by omega)
  have h4 := two 4 (by omega)
  have h8 := two 8 (by omega)
  have h16 := two 16 (by omega)
  have pair : checkOrder c.dmax d.toNat = none ∧ d.toNat = 2 ↔ d = 2#5 := by
    rw [h2]
    simp only [checkOrder]
    constructor
    · exact fun h => h.2
    · intro h
      refine ⟨?_, h⟩
      rw [if_neg (by omega)]
  cases sch <;> simp only [checkSchemeOrder, Instr.wfScheme, orElse_none]
  · exact checkOrder_none _ _
  · simpa using pair
  · simpa using pair
  · simpa using pair
  · rw [checkOrder_none]
    simp [hoSupported, h2, h4, h8, h16]
    intro _
    tauto

/-- The checks of 60_exceptions.md R162 find no error exactly in the well-formed commands. -/
theorem check_none (c : Config) (i : Instr) : check c.dmax i = none ↔ i.wellFormed c.dmax = true := by
  cases i <;>
    simp only [check, Instr.wellFormed, orElse_none, checkNb_none, checkOrder_none, checkSchemeOrder_none,
      Bool.and_eq_true]

/-- An order the block holds fits the register files. -/
theorem wfOrder_bounds {dmax : Nat} {d : BitVec 5} (h : Instr.wfOrder dmax d = true) :
    2 ≤ d.toNat ∧ d.toNat ≤ dmax := by
  simpa [Instr.wfOrder] using h

/-- Every accepted order of a scheme is one the block holds. -/
theorem wfScheme_bounds (c : Config) {d : BitVec 5} {sch : Scheme} (h : Instr.wfScheme c.dmax d sch = true) :
    2 ≤ d.toNat ∧ d.toNat ≤ c.dmax := by
  have hmax := c.legal
  cases sch <;> simp only [Instr.wfScheme, Bool.and_eq_true, decide_eq_true_eq] at h
  · exact wfOrder_bounds h
  · subst h; simp; omega
  · subst h; simp; omega
  · subst h; simp; omega
  · exact wfOrder_bounds h.1

@[simp] theorem pxShares_length (d : Nat) (s : State) : (pxShares d s).length = min d 16 := by simp [pxShares]
@[simp] theorem pyShares_length (d : Nat) (s : State) : (pyShares d s).length = min d 16 := by simp [pyShares]
@[simp] theorem shareRows_length (d n : Nat) (s : State) : (shareRows d n s).length = min d 16 := by
  simp [shareRows]

theorem shareRows_row_length (d n : Nat) (s : State) : ∀ r ∈ shareRows d n s, r.length = min n 16 := by
  intro r hr
  simp only [shareRows, List.mem_map] at hr
  obtain ⟨v, -, rfl⟩ := hr
  simp

@[simp] theorem xorRows_length (n : Nat) (rows : List (List Word)) : (xorRows n rows).length = n := by
  simp [xorRows]

/-- PZ after a result: the result's shares, then the old registers (10_state.md R24). -/
theorem setPz_pz_getElem (zs : List Word) (s : State) (k : Nat) (hk : k < 16) :
    (setPz zs s).pz[k] = if h : k < zs.length then zs[k] else s.pz[k] := by
  simp only [setPz_pz]
  split
  · exact splice_getElem_lt _ _ _ _ _
  · exact splice_getElem_ge _ _ _ _ (by omega)

/-- A word of SH after rows are written: the row's word where the rows reach, the old word elsewhere
(10_state.md R21). -/
theorem setShareRows_sh_getElem (rows : List (List Word)) (s : State) (k w : Nat) (hk : k < 16) (hw : w < 16) :
    (setShareRows rows s).sh[k][w] =
      if h : k < rows.length then (if h' : w < rows[k].length then rows[k][w] else s.sh[k][w]) else s.sh[k][w] := by
  have row : (setShareRows rows s).sh[k] =
      if h : k < rows.length then splice rows[k] s.sh[k] else s.sh[k] := by
    show (splice (List.zipWith splice rows s.sh.toList) s.sh)[k] = _
    split
    · rw [splice_getElem_lt _ _ _ _ (by simp; omega)]
      simp
    · rw [splice_getElem_ge _ _ _ _ (by simp; omega)]
  simp only [row]
  split
  · split
    · exact splice_getElem_lt _ _ _ _ _
    · exact splice_getElem_ge _ _ _ _ (by omega)
  · rfl

end Sys2Proof.Machine
end

