-- ==== Sys2Proof/Laws/Ops.lean ====
section
/-! SUPPORT. RNG words and the shape of every command: what `runCommand` can do, once. -/

namespace Sys2Proof.Machine

/-! ### RNG words -/

@[simp] theorem randMany_length (n : Nat) (ws : List Word) : (randMany n ws).1.length = n := by
  induction n generalizing ws with
  | zero => rfl
  | succ n ih => simp [randMany, ih]

/-- `n` draws consume exactly `n` words. -/
@[simp] theorem randMany_rest (n : Nat) (ws : List Word) : (randMany n ws).2 = ws.drop n := by
  induction n generalizing ws with
  | zero => simp [randMany]
  | succ n ih => cases ws <;> simp [randMany, rand32, ih]

/-- The words drawn are the first ones. -/
theorem randMany_words (n : Nat) (ws : List Word) (h : n ≤ ws.length) : (randMany n ws).1 = ws.take n := by
  induction n generalizing ws with
  | zero => simp [randMany]
  | succ n ih =>
    cases ws with
    | nil => simp at h
    | cons w ws => simp [randMany, rand32, ih ws (by simpa using h)]

/-- An offered word is consumed or nothing changes (10_state.md R35). -/
theorem offerWord_cases (w : Word) (s : State) :
    (rngReady s = true ∧ offerWord w s = { s with got := s.got ++ [w] }) ∨
      (rngReady s = false ∧ offerWord w s = s) := by
  unfold offerWord
  cases h : rngReady s <;> simp

/-! ### Commands -/

variable {i : Instr} {result : List Word → State → State} {s t : State}

theorem runCommand_rejects {c : CmdError} (hb : s.status.busy = false) (hc : check s.cfg.dmax i = some c) :
    runCommand i result s = .next (reject c s) := by
  simp [runCommand, hb, hc]

theorem runCommand_accepts (hb : s.status.busy = false) (hw : i.wellFormed s.cfg.dmax = true) :
    runCommand i result s = .next (accept s) := by
  simp [runCommand, hb, (check_none s.cfg i).mpr hw]

theorem runCommand_waits (hb : s.status.busy = true) (hw : i.wellFormed s.cfg.dmax = true)
    (hg : s.got.length < draws i) : runCommand i result s = .next s := by
  simp [runCommand, hb, (check_none s.cfg i).mpr hw, hg]

theorem runCommand_completes (h : Ready i s) :
    runCommand i result s = .next (complete (draws i) (result s.got s)) := by
  obtain ⟨hb, hw, hg⟩ := h
  simp [runCommand, hb, (check_none s.cfg i).mpr hw, hg]

/-- Everything the engine's step on a command can do when it answers a next state. -/
theorem runCommand_cases (h : runCommand i result s = .next t) :
    (s.status.busy = false ∧ ∃ c, check s.cfg.dmax i = some c ∧ t = reject c s) ∨
      (s.status.busy = false ∧ i.wellFormed s.cfg.dmax = true ∧ t = accept s) ∨
      (s.status.busy = true ∧ i.wellFormed s.cfg.dmax = true ∧ s.got.length < draws i ∧ t = s) ∨
      (Ready i s ∧ t = complete (draws i) (result s.got s)) := by
  have hw := check_none s.cfg i
  unfold runCommand at h
  split at h
  · rename_i c hb hc
    exact .inl ⟨hb, c, hc, by simpa using h.symm⟩
  · rename_i hb hc
    exact .inr (.inl ⟨hb, hw.mp hc, by simpa using h.symm⟩)
  · cases h
  · rename_i hb hc
    split at h
    · exact .inr (.inr (.inl ⟨hb, hw.mp hc, ‹_›, by simpa using h.symm⟩))
    · exact .inr (.inr (.inr ⟨⟨hb, hw.mp hc, by omega⟩, by simpa using h.symm⟩))

/-- A command never refuses. -/
theorem runCommand_not_refused (r : Refusal) : runCommand i result s ≠ .refused r := by
  unfold runCommand
  split <;> (try split) <;> simp

/-- A command faults only on a BUSY engine whose command is not accepted. -/
theorem runCommand_fault {f : Fault} (h : runCommand i result s = .fault f) :
    s.status.busy = true ∧ i.wellFormed s.cfg.dmax = false := by
  unfold runCommand at h
  split at h
  · cases h
  · cases h
  · rename_i c hb hc
    refine ⟨hb, ?_⟩
    by_contra hne
    have := (check_none s.cfg i).mpr (by simpa using hne)
    simp [this] at hc
  · split at h <;> cases h

end Sys2Proof.Machine
end

