-- ==== Sys2Proof/Laws/Permutation.lean ====
section
/-! SUPPORT. The permutation's building blocks keep a state's shape. -/

namespace Sys2Proof.Machine

theorem toBranches_length (n : Nat) (ws : List Word) (h : ws.length = 2 * n) : (toBranches ws).length = n := by
  induction n generalizing ws with
  | zero =>
    have : ws = [] := List.eq_nil_of_length_eq_zero (by omega)
    subst this; rfl
  | succ n ih =>
    match ws, h with
    | x :: y :: rest, h => simp [toBranches, ih rest (by simp at h; omega)]

@[simp] theorem ofBranches_length (S : List Branch) : (ofBranches S).length = 2 * S.length := by
  induction S with
  | nil => rfl
  | cons b S ih => simp [ofBranches, ih]; omega

@[simp] theorem toBranches_ofBranches (S : List Branch) : toBranches (ofBranches S) = S := by
  induction S with
  | nil => rfl
  | cons b S ih => simp [ofBranches, toBranches, ih]

theorem ofBranches_toBranches (n : Nat) (ws : List Word) (h : ws.length = 2 * n) :
    ofBranches (toBranches ws) = ws := by
  induction n generalizing ws with
  | zero =>
    have : ws = [] := List.eq_nil_of_length_eq_zero (by omega)
    subst this; rfl
  | succ n ih =>
    match ws, h with
    | x :: y :: rest, h => simp [toBranches, ofBranches, ih rest (by simp at h; omega)]

@[simp] theorem constAdd_length (i : Nat) (S : List Branch) : (constAdd i S).length = S.length := by
  unfold constAdd; split <;> simp

theorem arxLayer_length (S : List Branch) (h : S.length ≤ 8) : (arxLayer S).length = S.length := by
  simp [arxLayer, rcon, h]

theorem linear_length (S : List Branch) (h : S.length % 2 = 0) : (linear S).length = S.length := by
  simp [linear]; omega

theorem round_length (S : List Branch) (i : Nat) (h8 : S.length ≤ 8) (h2 : S.length % 2 = 0) :
    (round S i).length = S.length := by
  have ha : (arxLayer (constAdd i S)).length = S.length := by
    rw [arxLayer_length _ (by simpa using h8), constAdd_length]
  rw [round, linear_length _ (by omega), ha]

/-- One more round (40_permutation.md R90). -/
theorem permute_succ (n : Nat) (S : List Branch) : permute (n + 1) S = round (permute n S) n := by
  simp [permute, List.range_succ, List.foldl_append]

theorem permute_length (n : Nat) (S : List Branch) (h8 : S.length ≤ 8) (h2 : S.length % 2 = 0) :
    (permute n S).length = S.length := by
  induction n with
  | zero => rfl
  | succ n ih => rw [permute_succ, round_length _ _ (by omega) (by omega), ih]

/-- The number of branches is even and at most eight (30_encoding.md R62). -/
theorem branches_shape (nb : BitVec 2) : branches nb ≤ 8 ∧ branches nb % 2 = 0 := by
  revert nb; decide

theorem rowLen_le (nb : BitVec 2) : rowLen nb ≤ 16 := by
  have := (branches_shape nb).1
  simp only [rowLen]; omega

theorem permuteWords_length (n : Nat) (nb : BitVec 2) (ws : List Word) (h : ws.length = rowLen nb) :
    (permuteWords n ws).length = rowLen nb := by
  have hl := toBranches_length (branches nb) ws h
  have hs := branches_shape nb
  rw [permuteWords, ofBranches_length, permute_length _ _ (by omega) (by omega), hl, rowLen]

end Sys2Proof.Machine
end

