-- ==== Sys2Proof/Laws/SecureAdders.lean ====
section
/-! SUPPORT. Every adder returns as many shares as it is given. -/

namespace Sys2Proof.Machine

@[simp] theorem secAnd_length {w : Nat} (ps : List (BitVec w × BitVec w)) (ws : List Word) :
    (secAnd ps ws).1.length = ps.length := by
  induction ps generalizing ws with
  | nil => rfl
  | cons p ps ih => simp [secAnd, ih]

theorem secAndBit_length (a b : List (BitVec 1)) (ws : List Word) :
    (secAndBit a b ws).1.length = min a.length b.length := by simp [secAndBit]

theorem secAndW_length (X Y : List Word) (ws : List Word) :
    (secAndW X Y ws).1.length = min X.length Y.length := by simp [secAndW]

theorem boolAddFrom_length (X Y : List Word) (n k d : Nat) (c : List (BitVec 1)) (Z ws : List Word)
    (hX : X.length = d) (hY : Y.length = d) (hc : c.length = d) (hZ : Z.length = d) :
    (boolAddFrom X Y n k c Z ws).1.length = d := by
  induction n generalizing k c Z ws with
  | zero => exact hZ
  | succ n ih =>
    unfold boolAddFrom
    dsimp only
    split
    · exact ih _ _ _ _ (by simp [secAndBit_length, hX, hY, hc]) (by simp [hX, hY, hc, hZ])
    · exact ih _ _ _ _ hc (by simp [hX, hY, hc, hZ])

theorem boolAdd_length (X Y ws : List Word) (h : Y.length = X.length) : (boolAdd X Y ws).1.length = X.length :=
  boolAddFrom_length X Y 32 0 X.length _ _ ws rfl h (by simp) (by simp)

/-- The orders a scheme adds at: any number of shares, or two (41_secure_adders.md R114). -/
def schemeFits (d : Nat) : Scheme → Prop
  | .bool => True
  | .ho => 1 ≤ d
  | _ => d = 2

theorem schemeFits_of_wf (c : Config) {d : BitVec 5} {sch : Scheme} (h : Instr.wfScheme c.dmax d sch = true) :
    schemeFits d.toNat sch := by
  have hb := wfScheme_bounds c h
  cases sch <;> simp only [Instr.wfScheme, decide_eq_true_eq] at h <;> simp only [schemeFits]
  · subst h; rfl
  · subst h; rfl
  · subst h; rfl
  · omega

theorem mAdd_length (sch : Scheme) (X Y ws : List Word) (h : Y.length = X.length)
    (hf : schemeFits X.length sch) : (mAdd sch X Y ws).1.length = X.length := by
  cases sch <;> simp only [mAdd, schemeFits] at *
  · exact boolAdd_length X Y ws h
  · simp [convAddShares, onPairs, hf]
  · simp [goubinAddShares, onPairs, hf]
  · simp [ksAddShares, onPairs, hf]
  · unfold hoAdd
    split
    · simp [goubinAddShares, onPairs, *]
    · simp; omega

end Sys2Proof.Machine
end

