-- ==== Sys2Proof/Laws/MaskedPermutation.lean ====
section
/-! SUPPORT. The masked round keeps the number of rows and their length. -/

namespace Sys2Proof.Machine

/-- `d` rows of length `n`. -/
def Shape {α : Type} (d n : Nat) (rows : List (List α)) : Prop := rows.length = d ∧ ∀ r ∈ rows, r.length = n

theorem Shape.map {α β : Type} {d n m : Nat} {rows : List (List α)} (f : List α → List β)
    (h : Shape d n rows) (hf : ∀ r : List α, r.length = n → (f r).length = m) : Shape d m (rows.map f) := by
  refine ⟨by simp [h.1], ?_⟩
  intro r hr
  obtain ⟨q, hq, rfl⟩ := List.mem_map.mp hr
  exact hf q (h.2 q hq)

theorem shareRows_shape (d n : Nat) (s : State) (hd : d ≤ 16) (hn : n ≤ 16) : Shape d n (shareRows d n s) :=
  ⟨by simp [hd], fun r hr => by rw [shareRows_row_length d n s r hr]; omega⟩

theorem randRows_shape (len n : Nat) (ws : List Word) : Shape n len (randRows len n ws).1 := by
  induction n generalizing ws with
  | zero => exact ⟨rfl, by simp [randRows]⟩
  | succ n ih =>
    obtain ⟨h1, h2⟩ := ih (randMany len ws).2
    refine ⟨by simpa [randRows] using h1, ?_⟩
    intro r hr
    simp only [randRows, List.mem_cons] at hr
    rcases hr with rfl | hr
    · simp
    · exact h2 r (by simpa using hr)

/-- MASK's rows consume (d−1)·2nb words. -/
theorem randRows_rest (len n : Nat) (ws : List Word) : (randRows len n ws).2 = ws.drop (n * len) := by
  induction n generalizing ws with
  | zero => simp [randRows]
  | succ n ih => simp [randRows, ih, List.drop_drop, Nat.succ_mul, Nat.add_comm]

@[simp] theorem xorHead_length (rc : Word) (X : List Word) : (xorHead rc X).length = X.length := by
  cases X <;> rfl

theorem mAlzetteStep_lengths (sch : Scheme) (rc : Word) (st : (List Word × List Word) × List Word)
    (sh : Nat × Nat) (d : Nat) (hX : st.1.1.length = d) (hY : st.1.2.length = d) (hf : schemeFits d sch) :
    (mAlzetteStep sch rc st sh).1.1.length = d ∧ (mAlzetteStep sch rc st sh).1.2.length = d := by
  have h := mAdd_length sch st.1.1 (st.1.2.map (rotr · sh.1)) st.2 (by simp [hX, hY]) (by rw [hX]; exact hf)
  simp only [mAlzetteStep, xorHead_length, List.length_zipWith]
  omega

theorem mAlzetteFold_lengths (sch : Scheme) (rc : Word) (shs : List (Nat × Nat)) (d : Nat) (hf : schemeFits d sch)
    (st : (List Word × List Word) × List Word) (hX : st.1.1.length = d) (hY : st.1.2.length = d) :
    (shs.foldl (mAlzetteStep sch rc) st).1.1.length = d ∧ (shs.foldl (mAlzetteStep sch rc) st).1.2.length = d := by
  induction shs generalizing st with
  | nil => exact ⟨hX, hY⟩
  | cons sh shs ih =>
    obtain ⟨h1, h2⟩ := mAlzetteStep_lengths sch rc st sh d hX hY hf
    exact ih _ h1 h2

theorem mAlzette_length (sch : Scheme) (rc : Word) (col : List Branch) (ws : List Word)
    (hf : schemeFits col.length sch) : (mAlzette sch rc col ws).1.length = col.length := by
  obtain ⟨h1, h2⟩ := mAlzetteFold_lengths sch rc alzetteShifts col.length hf
    ((col.map (·.x), col.map (·.y)), ws) (by simp) (by simp)
  simp only [mAlzette, List.length_zipWith]
  omega

theorem maskedConstAdd_shape {d n : Nat} (i : Nat) {rows : List (List Branch)} (h : Shape d n rows) :
    Shape d n (maskedConstAdd i rows) := by
  obtain ⟨h1, h2⟩ := h
  cases rows with
  | nil => exact ⟨h1, h2⟩
  | cons r rs =>
    refine ⟨by simpa [maskedConstAdd] using h1, ?_⟩
    intro q hq
    simp only [maskedConstAdd, List.mem_cons] at hq
    rcases hq with rfl | hq
    · simpa using h2 r (by simp)
    · exact h2 q (by simp [hq])

theorem setColumn_shape {d n : Nat} {rows : List (List Branch)} (b : Nat) (col : List Branch)
    (h : Shape d n rows) (hc : col.length = d) : Shape d n (setColumn rows b col) := by
  obtain ⟨h1, h2⟩ := h
  refine ⟨by simp [setColumn, h1, hc], ?_⟩
  intro q hq
  obtain ⟨k, hk, rfl⟩ := List.mem_iff_getElem.mp hq
  have hk' : k < rows.length := by simp [setColumn] at hk; omega
  simpa [setColumn] using h2 rows[k] (List.getElem_mem hk')

theorem maskedArx_shape {d n : Nat} (sch : Scheme) (bs : List Nat) (hf : schemeFits d sch)
    {rows : List (List Branch)} (ws : List Word) (h : Shape d n rows) :
    Shape d n (maskedArx sch bs rows ws).1 := by
  induction bs generalizing rows ws with
  | nil => exact h
  | cons b bs ih =>
    have hc : (column rows b).length = d := by simp [column, h.1]
    exact ih _ (setColumn_shape b _ h (by rw [mAlzette_length _ _ _ _ (by rw [hc]; exact hf), hc]))

theorem maskedRound_shape {d n : Nat} (sch : Scheme) (nb i : Nat) (hf : schemeFits d sch) (hn : n % 2 = 0)
    (st : List (List Branch) × List Word) (h : Shape d n st.1) : Shape d n (maskedRound sch nb st i).1 :=
  (maskedArx_shape sch (List.range nb) hf st.2 (maskedConstAdd_shape i h)).map _
    fun r hr => by rw [linear_length r (by omega), hr]

/-- One more round (42_masked_permutation.md R146). -/
theorem maskedPermute_succ (sch : Scheme) (nb n : Nat) (rows : List (List Branch)) (ws : List Word) :
    maskedPermute sch nb (n + 1) rows ws = maskedRound sch nb (maskedPermute sch nb n rows ws) n := by
  simp [maskedPermute, List.range_succ, List.foldl_append]

theorem maskedPermute_shape {d n : Nat} (sch : Scheme) (nb steps : Nat) (hf : schemeFits d sch) (hn : n % 2 = 0)
    {rows : List (List Branch)} (ws : List Word) (h : Shape d n rows) :
    Shape d n (maskedPermute sch nb steps rows ws).1 := by
  induction steps with
  | zero => exact h
  | succ m ih => rw [maskedPermute_succ]; exact maskedRound_shape sch nb m hf hn _ ih

end Sys2Proof.Machine
end

