-- ==== Sys2Proof/Laws/Exec.lean ====
section
/-! SUPPORT. exec as the one shape `runCommand` with each command's result, and each result as PZ shares, SH rows or
nothing. -/

namespace Sys2Proof.Machine

/-- The data result of each command's completion. -/
def resultOf : Instr → List Word → State → State
  | .nop => fun _ t => t
  | .permute nb f => fun _ t => permuteResult nb f t
  | .mpermuteBool nb f d => mpermuteResult .bool nb f d
  | .mpermuteConv nb f d => mpermuteResult .conv nb f d
  | .mpermuteGoubin nb f d => mpermuteResult .goubin nb f d
  | .mpermuteKs nb f d => mpermuteResult .ks nb f d
  | .mpermuteHo nb f d => mpermuteResult .ho nb f d
  | .mask nb d => maskResult nb d
  | .unmask nb d => fun _ t => unmaskResult nb d t
  | .secand d => secandResult d
  | .maddBool d => maddResult .bool d
  | .maddConv d => maddResult .conv d
  | .maddGoubin d => maddResult .goubin d
  | .maddKs d => maddResult .ks d
  | .maddHo d => maddResult .ho d
  | .b2a => convertResult b2a
  | .a2b => convertResult a2b
  | .zeroize => fun _ t => zeroizeResult t

/-- Every arm of exec is `runCommand` with that command's result. -/
theorem exec_eq (i : Instr) (s : State) : exec i s = runCommand i (resultOf i) s := by
  cases i <;> rfl

/-- Every result is one of these: nothing, the first PZ registers, the first rows of SH, or all data cleared. -/
theorem resultOf_cases (i : Instr) (ws : List Word) (s : State) :
    (resultOf i ws s = s) ∨ (∃ zs, resultOf i ws s = setPz zs s) ∨ (∃ rows, resultOf i ws s = setShareRows rows s) ∨
      (resultOf i ws s = zeroizeResult s) := by
  cases i
  case nop => exact .inl rfl
  case zeroize => exact .inr (.inr (.inr rfl))
  case permute | mpermuteBool | mpermuteConv | mpermuteGoubin | mpermuteKs | mpermuteHo | mask | unmask =>
    exact .inr (.inr (.inl ⟨_, rfl⟩))
  all_goals exact .inr (.inl ⟨_, rfl⟩)

/-- A result writes no control state: everything but SH, PX, PY and PZ is as before. -/
theorem resultOf_control (i : Instr) (ws : List Word) (s : State) :
    resultOf i ws s =
      { s with sh := (resultOf i ws s).sh, px := (resultOf i ws s).px, py := (resultOf i ws s).py,
               pz := (resultOf i ws s).pz } := by
  rcases resultOf_cases i ws s with h | ⟨zs, h⟩ | ⟨rows, h⟩ | h <;> rw [h] <;> rfl

/-- Everything exec can do when it answers a next state. -/
theorem exec_cases {i : Instr} {s t : State} (h : exec i s = .next t) :
    (s.status.busy = false ∧ ∃ c, check s.cfg.dmax i = some c ∧ t = reject c s) ∨
      (s.status.busy = false ∧ i.wellFormed s.cfg.dmax = true ∧ t = accept s) ∨
      (s.status.busy = true ∧ i.wellFormed s.cfg.dmax = true ∧ s.got.length < draws i ∧ t = s) ∨
      (Ready i s ∧ t = complete (draws i) (resultOf i s.got s)) :=
  runCommand_cases (exec_eq i s ▸ h)

/-- A ready command completes. -/
theorem exec_completes {i : Instr} {s : State} (h : Ready i s) :
    exec i s = .next (complete (draws i) (resultOf i s.got s)) := by
  rw [exec_eq]; exact runCommand_completes h

/-- The shares a primitive command writes, one per share of its order (41_secure_adders.md R115-R120). -/
theorem maddShares_length (c : Config) {sch : Scheme} {d : BitVec 5} (s : State) (ws : List Word)
    (h : Instr.wfScheme c.dmax d sch = true) :
    (mAdd sch (pxShares d.toNat s) (pyShares d.toNat s) ws).1.length = d.toNat := by
  have hb := wfScheme_bounds c h
  have hm := c.legal
  have hl : (pxShares d.toNat s).length = d.toNat := by simp; omega
  rw [mAdd_length _ _ _ _ (by simp) (by rw [hl]; exact schemeFits_of_wf c h), hl]

/-- The rows MPERMUTE writes: d rows of 2nb words (42_masked_permutation.md R147). -/
theorem mpermuteRows_shape (c : Config) {sch : Scheme} {d : BitVec 5} (nb : BitVec 2) (n : Nat) (s : State)
    (ws : List Word) (h : Instr.wfScheme c.dmax d sch = true) :
    Shape d.toNat (rowLen nb)
      ((maskedPermute sch (branches nb) n ((shareRows d.toNat (rowLen nb) s).map toBranches) ws).1.map
        ofBranches) := by
  have hb := wfScheme_bounds c h
  have hm := c.legal
  have hs := branches_shape nb
  have h0 : Shape d.toNat (branches nb) ((shareRows d.toNat (rowLen nb) s).map toBranches) :=
    (shareRows_shape _ _ s (by omega) (rowLen_le nb)).map _ fun r hr => toBranches_length _ r hr
  refine (maskedPermute_shape sch _ n (schemeFits_of_wf c h) hs.2 ws h0).map _ fun r hr => ?_
  rw [ofBranches_length, hr, rowLen]

end Sys2Proof.Machine
end

