-- ==== Sys2Proof/Laws/Step.lean ====
section
/-! SUPPORT. What one step can do, once. -/

namespace Sys2Proof.Machine

theorem step_nil {s : State} (h : s.sched = []) : step s = engineStep s := by
  simp [step, schedStep, h]

theorem step_cons {s : State} {e : Event} {rest : List Event} (h : s.sched = e :: rest) :
    step s = eventStep e { s with sched := rest } := by
  simp [step, schedStep, h]

/-- The engine's step: nothing when idle, else exec of the command in CMD. -/
theorem engineStep_cases {s t : State} (h : engineStep s = .next t) :
    (s.status.busy = false ∧ t = s) ∨ (s.status.busy = true ∧ ∃ i, decode s.cmd = .ok i ∧ exec i s = .next t) := by
  unfold engineStep at h
  cases hb : s.status.busy <;> simp only [hb, if_true, if_false, Bool.false_eq_true] at h
  · exact .inl ⟨rfl, by simpa using h.symm⟩
  · split at h
    · exact .inr ⟨rfl, _, ‹_›, h⟩
    · cases h

/-- A CMD write: overrun, rejection by the decoder, or exec of the word's command. -/
theorem writeCmd_cases {w : Word} {s t : State} (h : writeCmd w s = .next t) :
    (s.status.busy = true ∧ t = respond .written (setOvr s)) ∨
      (s.status.busy = false ∧ ∃ c, decode w = .error c ∧ t = reject c (latch w s)) ∨
      (s.status.busy = false ∧ ∃ i, decode w = .ok i ∧ exec i (latch w s) = .next t) := by
  unfold writeCmd at h
  cases hb : s.status.busy <;> simp only [hb, if_true, if_false, Bool.false_eq_true] at h
  · split at h
    · exact .inr (.inr ⟨rfl, _, ‹_›, h⟩)
    · exact .inr (.inl ⟨rfl, _, ‹_›, by simpa using h.symm⟩)
  · exact .inl ⟨rfl, by simpa using h.symm⟩

/-- A read: an error answer, a register's value, or a free value; nothing else changes (20_memory.md R48). -/
theorem busRead_cases (r : Option Reg) (s : State) :
    (r = none ∧ busRead r s = respondFree .readError (setBuserr s)) ∨
      (∃ q v, r = some q ∧ readReg q s = some v ∧ busRead r s = respond (.read v) s) ∨
      (∃ q, r = some q ∧ readReg q s = none ∧ busRead r s = respondFree .read s) := by
  unfold busRead
  cases r with
  | none => exact .inl ⟨rfl, rfl⟩
  | some q =>
    cases h : readReg q s with
    | none => exact .inr (.inr ⟨q, rfl, h, by simp [h]⟩)
    | some v => exact .inr (.inl ⟨q, v, rfl, h, by simp [h]⟩)

/-- A BUSY engine drops a data write (20_memory.md R49). -/
theorem writeData_busy {store : State → State} {s : State} (h : s.status.busy = true) :
    writeData store s = respond .written (setWbusy s) := by simp [writeData, h]

theorem writeData_idle {store : State → State} {s : State} (h : s.status.busy = false) :
    writeData store s = respond .written (store s) := by simp [writeData, h]

end Sys2Proof.Machine
end

