-- ==== Sys2Proof/Laws/PerInstr.lean ====
section
/-! SUPPORT. One family of lemmas per command: its word fits its row of spec/opcode_table.json. -/

namespace Sys2Proof.Laws.TableRow

/-- The mask and the match of a command's row, as spec/opcode_table.json gives them. -/
def row : Instr → Word × Word
  | .nop                  => (0xFFFFFFFF#32, 0x00000000#32)
  | .permute _ _          => (0xFFFFFF8F#32, 0x00000001#32)
  | .mpermuteBool _ _ _   => (0xFFFE0F8F#32, 0x00000002#32)
  | .mpermuteConv _ _ _   => (0xFFFE0F8F#32, 0x00000102#32)
  | .mpermuteGoubin _ _ _ => (0xFFFE0F8F#32, 0x00000202#32)
  | .mpermuteKs _ _ _     => (0xFFFE0F8F#32, 0x00000302#32)
  | .mpermuteHo _ _ _     => (0xFFFE0F8F#32, 0x00000402#32)
  | .mask _ _             => (0xFFFE0FCF#32, 0x00000003#32)
  | .unmask _ _           => (0xFFFE0FCF#32, 0x00000004#32)
  | .secand _             => (0xFFFE0FFF#32, 0x00000005#32)
  | .maddBool _           => (0xFFFE0FFF#32, 0x00000006#32)
  | .maddConv _           => (0xFFFE0FFF#32, 0x00000106#32)
  | .maddGoubin _         => (0xFFFE0FFF#32, 0x00000206#32)
  | .maddKs _             => (0xFFFE0FFF#32, 0x00000306#32)
  | .maddHo _             => (0xFFFE0FFF#32, 0x00000406#32)
  | .b2a                  => (0xFFFFFFFF#32, 0x00000007#32)
  | .a2b                  => (0xFFFFFFFF#32, 0x00000008#32)
  | .zeroize              => (0xFFFFFFFF#32, 0x00000009#32)

/-- The word of a command has its row's fixed bits: no field spills over another (30_encoding.md R65). -/
def Statement (i : Instr) : Prop := encode i &&& (row i).1 = (row i).2

theorem nop : Statement .nop := by unfold Statement; decide
theorem permute (nb : BitVec 2) (f : Bool) : Statement (.permute nb f) := by
  unfold Statement; revert nb f; decide +kernel
theorem mpermuteBool (nb : BitVec 2) (f : Bool) (d : BitVec 5) : Statement (.mpermuteBool nb f d) := by
  unfold Statement; revert nb f d; decide +kernel
theorem mpermuteConv (nb : BitVec 2) (f : Bool) (d : BitVec 5) : Statement (.mpermuteConv nb f d) := by
  unfold Statement; revert nb f d; decide +kernel
theorem mpermuteGoubin (nb : BitVec 2) (f : Bool) (d : BitVec 5) : Statement (.mpermuteGoubin nb f d) := by
  unfold Statement; revert nb f d; decide +kernel
theorem mpermuteKs (nb : BitVec 2) (f : Bool) (d : BitVec 5) : Statement (.mpermuteKs nb f d) := by
  unfold Statement; revert nb f d; decide +kernel
theorem mpermuteHo (nb : BitVec 2) (f : Bool) (d : BitVec 5) : Statement (.mpermuteHo nb f d) := by
  unfold Statement; revert nb f d; decide +kernel
theorem mask (nb : BitVec 2) (d : BitVec 5) : Statement (.mask nb d) := by
  unfold Statement; revert nb d; decide +kernel
theorem unmask (nb : BitVec 2) (d : BitVec 5) : Statement (.unmask nb d) := by
  unfold Statement; revert nb d; decide +kernel
theorem secand (d : BitVec 5) : Statement (.secand d) := by
  unfold Statement; revert d; decide +kernel
theorem maddBool (d : BitVec 5) : Statement (.maddBool d) := by
  unfold Statement; revert d; decide +kernel
theorem maddConv (d : BitVec 5) : Statement (.maddConv d) := by
  unfold Statement; revert d; decide +kernel
theorem maddGoubin (d : BitVec 5) : Statement (.maddGoubin d) := by
  unfold Statement; revert d; decide +kernel
theorem maddKs (d : BitVec 5) : Statement (.maddKs d) := by
  unfold Statement; revert d; decide +kernel
theorem maddHo (d : BitVec 5) : Statement (.maddHo d) := by
  unfold Statement; revert d; decide +kernel
theorem b2a : Statement .b2a := by unfold Statement; decide
theorem a2b : Statement .a2b := by unfold Statement; decide
theorem zeroize : Statement .zeroize := by unfold Statement; decide

end Sys2Proof.Laws.TableRow
end

