-- ==== Sys2Proof/Laws/Window.lean ====
section
/-! SUPPORT. The address map, offset by offset (20_memory.md R41), and one step over a host transaction. -/

namespace Sys2Proof.Machine

/-! ### The map -/

@[simp] theorem regAt_cmd (dmax : Nat) : regAt dmax 0x000#12 = some .cmd := rfl
@[simp] theorem regAt_status (dmax : Nat) : regAt dmax 0x004#12 = some .status := rfl
@[simp] theorem regAt_ctrl (dmax : Nat) : regAt dmax 0x008#12 = some .ctrl := rfl
@[simp] theorem regAt_id (dmax : Nat) : regAt dmax 0x00C#12 = some .id := rfl
@[simp] theorem regAt_param (dmax : Nat) : regAt dmax 0x010#12 = some .param := rfl
@[simp] theorem regAt_rngcnt (dmax : Nat) : regAt dmax 0x014#12 = some .rngcnt := rfl

theorem slot_eq {dmax : Nat} (k : Fin 16) (h : k.val < dmax) : slot dmax k.val = some k := by
  simp [slot, h]

theorem slot_none {dmax k : Nat} (hd : dmax ≤ 16) : slot dmax k = none ↔ dmax ≤ k := by
  unfold slot
  split
  · split <;> simp <;> omega
  · simp; omega

theorem regAt_px {dmax : Nat} (k : Fin 16) (h : k.val < dmax) :
    regAt dmax (BitVec.ofNat 12 (0x040 + 4 * k.val)) = some (.px k) := by
  have hk := k.isLt
  have hn : (BitVec.ofNat 12 (0x040 + 4 * k.val)).toNat = 0x040 + 4 * k.val := by simp; omega
  have hq : (0x040 + 4 * k.val - 0x040) / 4 = k.val := by omega
  simp only [regAt, hn]
  rw [if_neg (by omega), if_neg (by omega), if_neg (by omega), if_pos (by omega), hq, slot_eq k h, Option.map_some]

theorem regAt_py {dmax : Nat} (k : Fin 16) (h : k.val < dmax) :
    regAt dmax (BitVec.ofNat 12 (0x080 + 4 * k.val)) = some (.py k) := by
  have hk := k.isLt
  have hn : (BitVec.ofNat 12 (0x080 + 4 * k.val)).toNat = 0x080 + 4 * k.val := by simp; omega
  have hq : (0x080 + 4 * k.val - 0x080) / 4 = k.val := by omega
  simp only [regAt, hn]
  rw [if_neg (by omega), if_neg (by omega), if_neg (by omega), if_neg (by omega), if_pos (by omega), hq, slot_eq k h,
    Option.map_some]

theorem regAt_pz {dmax : Nat} (k : Fin 16) (h : k.val < dmax) :
    regAt dmax (BitVec.ofNat 12 (0x0C0 + 4 * k.val)) = some (.pz k) := by
  have hk := k.isLt
  have hn : (BitVec.ofNat 12 (0x0C0 + 4 * k.val)).toNat = 0x0C0 + 4 * k.val := by simp; omega
  have hq : (0x0C0 + 4 * k.val - 0x0C0) / 4 = k.val := by omega
  simp only [regAt, hn]
  rw [if_neg (by omega), if_neg (by omega), if_neg (by omega), if_neg (by omega), if_neg (by omega), if_pos (by omega),
    hq, slot_eq k h, Option.map_some]

theorem regAt_sh {dmax : Nat} (k w : Fin 16) (h : k.val < dmax) :
    regAt dmax (BitVec.ofNat 12 (0x100 + 64 * k.val + 4 * w.val)) = some (.sh k w) := by
  have hk := k.isLt
  have hw := w.isLt
  have hn : (BitVec.ofNat 12 (0x100 + 64 * k.val + 4 * w.val)).toNat = 0x100 + 64 * k.val + 4 * w.val := by
    simp; omega
  have hq : (0x100 + 64 * k.val + 4 * w.val - 0x100) / 64 = k.val := by omega
  have hr : Fin.ofNat 16 ((0x100 + 64 * k.val + 4 * w.val - 0x100) % 64 / 4) = w := by
    apply Fin.ext
    simp only [Fin.ofNat]
    omega
  simp only [regAt, hn]
  rw [if_neg (by omega), if_neg (by omega), if_neg (by omega), if_neg (by omega), if_neg (by omega), if_neg (by omega),
    hq, slot_eq k h, Option.map_some, hr]

/-- An offset has no register exactly when it is misaligned or reserved (20_memory.md R41, R44, R46). -/
theorem regAt_none {dmax : Nat} (hd : dmax ≤ 16) (off : BitVec 12) :
    regAt dmax off = none ↔ off.toNat % 4 ≠ 0 ∨ specReserved dmax off.toNat := by
  have hlt : off.toNat < 4096 := off.isLt
  simp only [specReserved]
  generalize hn : off.toNat = n at *
  simp only [regAt, hn]
  by_cases h4 : n % 4 ≠ 0
  · simp [h4]
  rw [if_neg h4]
  split
  · split <;> simp <;> omega
  split
  · simp; omega
  split
  · rw [Option.map_eq_none_iff, slot_none hd]; omega
  split
  · rw [Option.map_eq_none_iff, slot_none hd]; omega
  split
  · rw [Option.map_eq_none_iff, slot_none hd]; omega
  · rw [Option.map_eq_none_iff, slot_none hd]; omega

/-! ### One step over a host transaction -/

/-- A host read (30_encoding.md R67) is one `busRead` of the register at the offset. -/
theorem step_hostRd {s : State} {off : Nat} {rest : List Event} (h : s.sched = hostRd off :: rest) :
    step s = .next (busRead (regAt s.cfg.dmax (BitVec.ofNat 12 off)) { s with sched := rest }) := by
  rw [step_cons h]; rfl

/-- A host write (30_encoding.md R67) is one `busWrite` of the register at the offset. -/
theorem step_hostWr {s : State} {off : Nat} {v : Word} {rest : List Event} (h : s.sched = hostWr off v :: rest) :
    step s = busWrite (regAt s.cfg.dmax (BitVec.ofNat 12 off)) v { s with sched := rest } := by
  rw [step_cons h]; rfl

/-- Everything a step can be: the engine's turn with nothing scheduled, or one event on the state without it. -/
theorem step_cases {s t : State} (h : step s = .next t) :
    (s.sched = [] ∧ engineStep s = .next t) ∨
      ∃ e rest, s.sched = e :: rest ∧ eventStep e { s with sched := rest } = .next t := by
  cases hs : s.sched with
  | nil => exact .inl ⟨rfl, step_nil hs ▸ h⟩
  | cons e rest => exact .inr ⟨e, rest, rfl, step_cons hs ▸ h⟩

/-- A data write of one word to PX, PY or SH. -/
inductive DataStore : (State → State) → Prop where
  | px (k : Fin 16) (v : Word) : DataStore fun t => { t with px := t.px.set k v }
  | py (k : Fin 16) (v : Word) : DataStore fun t => { t with py := t.py.set k v }
  | sh (k w : Fin 16) (v : Word) : DataStore fun t => { t with sh := t.sh.set k (t.sh[k].set w v) }

/-- Everything a write can do: an error answer, a CMD write, an acknowledgement, a new IE, or a data write
(20_memory.md R47-R49). -/
theorem busWrite_cases {r : Option Reg} {v : Word} {s t : State} (h : busWrite r v s = .next t) :
    ((r = none ∨ r = some .id ∨ r = some .param ∨ r = some .rngcnt ∨ ∃ k, r = some (.pz k)) ∧ t = writeRefused s) ∨
      (r = some .cmd ∧ writeCmd v s = .next t) ∨
      (r = some .status ∧ t = respond .written { s with status := acknowledge v s.status }) ∨
      (r = some .ctrl ∧ t = respond .written { s with ie := v.getLsbD 0 }) ∨
      (∃ store, DataStore store ∧ t = writeData store s) := by
  unfold busWrite at h
  split at h
  case h_2 => exact .inr (.inl ⟨rfl, h⟩)
  all_goals (simp only [Host.Outcome.next.injEq] at h; subst h)
  · exact .inl ⟨by simp, rfl⟩
  · exact .inr (.inr (.inl ⟨rfl, rfl⟩))
  · exact .inr (.inr (.inr (.inl ⟨rfl, rfl⟩)))
  · exact .inl ⟨by simp, rfl⟩
  · exact .inl ⟨by simp, rfl⟩
  · exact .inl ⟨by simp, rfl⟩
  · exact .inr (.inr (.inr (.inr ⟨_, .px _ _, rfl⟩)))
  · exact .inr (.inr (.inr (.inr ⟨_, .py _ _, rfl⟩)))
  · exact .inl ⟨by simp, rfl⟩
  · exact .inr (.inr (.inr (.inr ⟨_, .sh _ _ _, rfl⟩)))

end Sys2Proof.Machine
end

