-- ==== Sys2Proof/Tests/Slice0.lean ====
section
/-! SUPPORT. Tests against the spec's own vectors (95_test_vectors.md and the rules' examples) and a witness for the
hypotheses of every statement. -/

namespace Sys2Proof.Tests

set_option Elab.async false

open Sys2Proof.Machine

/-! ### Helpers -/

/-- Whether an outcome is a next state with a property. -/
def after (o : Host.Outcome State Fault Refusal) (p : State → Bool) : Bool :=
  match o with
  | .next t => p t
  | .fault _ => false
  | .refused _ => false

/-- The reset state with the engine BUSY on `i`, the words `ws` received. -/
def busyWith (i : Instr) (ws : List Word) : State :=
  { State.reset with cmd := encode i, status := { Status.reset with busy := true }, got := ws }

/-- A state facing an event. -/
def facing (e : Event) (s : State) : State := { s with sched := [e] }

/-- Operand registers X and Y with their first shares given. -/
def withOperands (xs ys : List Word) (s : State) : State := { s with px := splice xs s.px, py := splice ys s.py }

/-- Word n of the counter RNG CTR (95_test_vectors.md). -/
def ctr (n : Nat) : List Word := (List.range n).map fun k => 1#32 + BitVec.ofNat 32 k * 0x9E3779B9#32

/-! ### WellFormed: one ill-formed term per check -/

theorem test_wf_nb : (Instr.permute 3#2 true).wellFormed 8 = false := by decide
theorem test_wf_order_low : (Instr.secand 1#5).wellFormed 8 = false := by decide
theorem test_wf_order_high : (Instr.mask 0#2 9#5).wellFormed 8 = false := by decide
theorem test_wf_two_shares : (Instr.mpermuteConv 0#2 false 3#5).wellFormed 8 = false := by decide
theorem test_wf_ho : (Instr.maddHo 6#5).wellFormed 8 = false := by decide
theorem test_wf_accepts : (Instr.mpermuteHo 2#2 true 8#5).wellFormed 8 = true := by decide

/-! ### Decode: words of 95_test_vectors.md V17 and 30_encoding.md R65, R68 -/

theorem test_decode_nop : decode 0x00000000#32 = .ok .nop := by decide
theorem test_decode_permute : decode 0x00000041#32 = .ok (.permute 0#2 true) := by decide
theorem test_decode_mpermuteBool : decode 0x00003002#32 = .ok (.mpermuteBool 0#2 false 3#5) := by decide
theorem test_decode_mpermuteConv : decode 0x00002102#32 = .ok (.mpermuteConv 0#2 false 2#5) := by decide
theorem test_decode_mpermuteGoubin : decode 0x00002202#32 = .ok (.mpermuteGoubin 0#2 false 2#5) := by decide
theorem test_decode_mpermuteKs : decode 0x00002362#32 = .ok (.mpermuteKs 2#2 true 2#5) := by decide
theorem test_decode_mpermuteHo : decode 0x00004402#32 = .ok (.mpermuteHo 0#2 false 4#5) := by decide
theorem test_decode_mask : decode 0x00003013#32 = .ok (.mask 1#2 3#5) := by decide
theorem test_decode_unmask : decode 0x00002004#32 = .ok (.unmask 0#2 2#5) := by decide
theorem test_decode_secand : decode 0x00008005#32 = .ok (.secand 8#5) := by decide
theorem test_decode_maddBool : decode 0x00003006#32 = .ok (.maddBool 3#5) := by decide
theorem test_decode_maddConv : decode 0x00002106#32 = .ok (.maddConv 2#5) := by decide
theorem test_decode_maddGoubin : decode 0x00002206#32 = .ok (.maddGoubin 2#5) := by decide
theorem test_decode_maddKs : decode 0x00002306#32 = .ok (.maddKs 2#5) := by decide
theorem test_decode_maddHo : decode 0x00004406#32 = .ok (.maddHo 4#5) := by decide
theorem test_decode_b2a : decode 0x00000007#32 = .ok .b2a := by decide
theorem test_decode_a2b : decode 0x00000008#32 = .ok .a2b := by decide
theorem test_decode_zeroize : decode 0x00000009#32 = .ok .zeroize := by decide
theorem test_decode_reserved_op : decode 0x0000000A#32 = .error .illegalCmd := by decide
theorem test_decode_z31 : decode 0x00020005#32 = .error .illegalCmd := by decide
theorem test_decode_scheme5 : decode 0x00005502#32 = .error .config := by decide
theorem test_encode_mpermuteKs : encode (.mpermuteKs 0#2 false 2#5) = 0x00002302#32 := by decide
theorem test_decodeTableWord : decodeTableWord 32 0x00002206 = some (.maddGoubin 2#5) := by decide

/-! ### Functions: V1-V13 -/

theorem test_rotr : rotr 0x12345678#32 31 = 0x2468ACF0#32 ∧ rotr 0x80000001#32 16 = 0x00018000#32 := by decide
theorem test_ell : ell 0x12345678#32 = 0x5678444C#32 ∧ ell 0xFFFFFFFF#32 = 0xFFFF0000#32 := by decide
theorem test_alzette :
    alzette ⟨0x01234567#32, 0x89ABCDEF#32⟩ 0xBF715880#32 = ⟨0x6AA7EB42#32, 0x6BCD187D#32⟩ := by decide +kernel
/-- V3, nb = 6, input words 0..11. -/
theorem test_linear : ofBranches (linear (toBranches ((List.range 12).map zext32))) =
    [0x0007000D#32, 0x0006000C#32, 0x00070009#32, 0x00060008#32, 0x00070001#32, 0x00060000#32,
     0x00000000#32, 0x00000001#32, 0x00000002#32, 0x00000003#32, 0x00000004#32, 0x00000005#32] := by decide +kernel
/-- V4, one round from the zero state. -/
theorem test_round : ofBranches (round (toBranches (List.replicate 8 0#32)) 0) =
    [0x1DB78605#32, 0x579F1751#32, 0x24D5A17F#32, 0x89708E8B#32,
     0x27C16010#32, 0x6372DDBC#32, 0x6B6089AC#32, 0x25EC34D8#32] := by decide +kernel
theorem test_secXor : secXor 0x0F0F0F0F#32 0x00FF00FF#32 0x12345678#32 = 0x1DC45988#32 := by decide
theorem test_secAnd5 :
    secAnd5 0xF0F0F0F0#32 0xFF00FF00#32 0x0F0F0F0F#32 0x00FF00FF#32 0x12345678#32 = 0xEDCBA987#32 := by decide
theorem test_secShift : secShift 0x80000001#32 0x00000003#32 0xAAAAAAAA#32 1 = 0xAAAAAAAE#32 := by decide

/-! ### Commands, one engine step each -/

/-- P4: NOP leaves DONE. -/
theorem test_nop : after (step (busyWith .nop [])) (fun t => statusWord t.status == 0x00000002#32) = true := by
  decide +kernel
/-- P1: PERMUTE.256.FULL on the zero state, words 0, 7 and the untouched word 8. -/
theorem test_permute : after (step (busyWith (.permute 0#2 true) [])) (fun t =>
    t.sh[0][0] == 0xC056D47E#32 && t.sh[0][7] == 0xD626D0B2#32 && t.sh[0][8] == 0#32) = true := by decide +kernel
/-- V5: 384, 7 rounds. -/
theorem test_permute_384 : after (step (busyWith (.permute 1#2 false) [])) (fun t =>
    t.sh[0][0] == 0x4DF96879#32 && t.sh[0][11] == 0x83ACF1E2#32) = true := by decide +kernel
/-- V5: 512, 12 rounds. -/
theorem test_permute_512 : after (step (busyWith (.permute 2#2 true) [])) (fun t =>
    t.sh[0][0] == 0x4E220540#32 && t.sh[0][15] == 0xB62EFAC8#32) = true := by decide +kernel
theorem test_zeroize : after (step { busyWith .zeroize [] with pz := Vector.replicate 16 5#32, ie := true })
    (fun t => t.pz[3] == 0#32 && t.ie) = true := by decide +kernel
/-- V9, d = 3. -/
theorem test_secand : after (step (withOperands [0x12345678#32, 0x9ABCDEF0#32, 0x0BADF00D#32]
    [0xFFFFFFFF#32, 0x00000000#32, 0x13579BDF#32] (busyWith (.secand 3#5) [0x11111111#32, 0x22222222#32, 0x44444444#32])))
    (fun t => t.pz[0] == 0x2107654B#32 && t.pz[1] == 0xCFE98BA5#32 && t.pz[2] == 0x6ECE8EEE#32) = true := by
  decide +kernel
/-- V10, d = 3, under CTR. -/
theorem test_maddBool : after (step (withOperands [0x12345678#32, 0x0F0F0F0F#32, 0xF0F0F0F0#32]
    [0x11111111#32, 0x22222222#32, 0x44444444#32] (busyWith (.maddBool 3#5) (ctr 93))))
    (fun t => t.pz[0] == 0xDEF01227#32 && t.pz[1] == 0x257135FB#32 && t.pz[2] == 0x9EC20722#32) = true := by
  decide +kernel
/-- V11, third row. -/
theorem test_maddConv : after (step (withOperands [0x12345678#32, 0x9ABCDEF0#32] [0x0BADF00D#32, 0xCAFEBABE#32]
    (busyWith (.maddConv 2#5) [0x01234567#32, 0x89ABCDEF#32, 0xFEDCBA98#32])))
    (fun t => t.pz[0] == 0x2C604A95#32 && t.pz[1] == 0x65BB99AE#32) = true := by decide +kernel
/-- V11, third row. -/
theorem test_maddGoubin : after (step (withOperands [0x12345678#32, 0x9ABCDEF0#32] [0x0BADF00D#32, 0xCAFEBABE#32]
    (busyWith (.maddGoubin 2#5) [0x01234567#32])))
    (fun t => t.pz[0] == 0x1BDF3DBB#32 && t.pz[1] == 0x5204EE80#32) = true := by decide +kernel
/-- V11, third row. -/
theorem test_maddKs : after (step (withOperands [0x12345678#32, 0x9ABCDEF0#32] [0x0BADF00D#32, 0xCAFEBABE#32]
    (busyWith (.maddKs 2#5) [0x01234567#32, 0x89ABCDEF#32])))
    (fun t => t.pz[0] == 0xD3670DCB#32 && t.pz[1] == 0x9ABCDEF0#32) = true := by decide +kernel
/-- V11, last row: a carry through all 32 bits needs the fifth level (90_conflicts.md C2). -/
theorem test_maddKs_carry : after (step (withOperands [0xFFFFFFFF#32, 0x00000000#32] [0x00000001#32, 0x00000000#32]
    (busyWith (.maddKs 2#5) [0x01234567#32, 0x89ABCDEF#32])))
    (fun t => t.pz[0] == 0#32 && t.pz[1] == 0#32) = true := by decide +kernel
/-- V13, d = 4, under CTR. -/
theorem test_maddHo : after (step (withOperands [0x11111111#32, 0x22222222#32, 0x44444444#32, 0x88888888#32] [1#32]
    (busyWith (.maddHo 4#5) (ctr 3))))
    (fun t => t.pz[0] == 0xA2598AC8#32 && t.pz[3] == 0x3C6EF373#32 && t.rngcnt == 3#32) = true := by decide +kernel
/-- P3. -/
theorem test_b2a : after (step (withOperands [0xDEADBEEF#32, 0x0BADF00D#32] [] (busyWith .b2a (ctr 1))))
    (fun t => t.pz[0] == 0xC9525ED5#32 && t.pz[1] == 0x0BADF00D#32) = true := by decide +kernel
/-- V8, second row: a carry through all 32 bits. -/
theorem test_a2b : after (step (withOperands [0xFFFFFFFF#32, 0x00000001#32] [] (busyWith .a2b [0xFFFFFFFF#32])))
    (fun t => t.pz[0] == 0x00000001#32) = true := by decide +kernel
/-- P2's MASK, and its next two commands' share values below. -/
theorem test_mask : after (step (busyWith (.mask 0#2 2#5) (ctr 8)))
    (fun t => t.sh[0][1] == 0x9E3779BA#32 && t.sh[1][7] == 0x53845410#32 && t.rngcnt == 8#32) = true := by
  decide +kernel
/-- P2's MPERMUTE.KS.256.SLIM: exact share values from the masked zero state. -/
theorem test_mpermuteKs : after (step { busyWith (.mpermuteKs 0#2 false 2#5) ((ctr 232).drop 8) with
      sh := splice [splice (ctr 8) (Vector.replicate 16 0#32), splice (ctr 8) (Vector.replicate 16 0#32)]
        State.reset.sh })
    (fun t => t.sh[0][0] == 0xA88B8379#32 && t.sh[0][7] == 0xD648CC77#32 && t.sh[1][0] == 0xFD45B127#32 &&
      t.sh[1][7] == 0x813A6368#32 && t.rngcnt == 224#32) = true := by decide +kernel
/-- V14: MPERMUTE.GOUBIN of the counting state (shared with a zero row) recombines to V6's 256/7 row. -/
theorem test_mpermuteGoubin : after (step { busyWith (.mpermuteGoubin 0#2 false 2#5) (ctr 112) with
      sh := splice [splice ((List.range 8).map zext32) (Vector.replicate 16 0#32)] State.reset.sh })
    (fun t => (t.sh[0][0] ^^^ t.sh[1][0]) == 0xDBEC11E5#32 && (t.sh[0][7] ^^^ t.sh[1][7]) == 0x3CBDF205#32) = true := by
  decide +kernel
/-- V14: MPERMUTE.CONV likewise. -/
theorem test_mpermuteConv : after (step { busyWith (.mpermuteConv 0#2 false 2#5) (ctr 336) with
      sh := splice [splice ((List.range 8).map zext32) (Vector.replicate 16 0#32)] State.reset.sh })
    (fun t => (t.sh[0][0] ^^^ t.sh[1][0]) == 0xDBEC11E5#32 && t.rngcnt == 336#32) = true := by
  decide +kernel
/-- V14: MPERMUTE.HO at d = 4 likewise. -/
theorem test_mpermuteHo : after (step { busyWith (.mpermuteHo 0#2 false 4#5) (ctr 336) with
      sh := splice [splice ((List.range 8).map zext32) (Vector.replicate 16 0#32)] State.reset.sh })
    (fun t => maskedWord 4 t 0 == 0xDBEC11E5#32 && maskedWord 4 t 7 == 0x3CBDF205#32) = true := by
  decide +kernel
/-- V14's count for MPERMUTE.BOOL at d = 3 (42_masked_permutation.md R148). -/
theorem test_mpermuteBool_draws : draws (.mpermuteBool 0#2 false 3#5) = 10416 := by decide
/-- V15's UNMASK: row 0 the XOR of the rows, row 1 cleared. -/
theorem test_unmask : after (step { busyWith (.unmask 0#2 2#5) [] with
      sh := splice [splice [0x00000055#32] (Vector.replicate 16 0#32), splice [0x00000005#32] (Vector.replicate 16 7#32)]
        State.reset.sh })
    (fun t => t.sh[0][0] == 0x00000050#32 && t.sh[1][0] == 0#32 && t.sh[1][8] == 7#32) = true := by decide +kernel

/-! ### Command path, window, reset -/

/-- V18's rows, from reset: the STATUS word after the CMD write. -/
def rejectWord (w st : Word) : Bool :=
  after (step (facing (hostWr 0x000 w) State.reset)) (fun t => statusWord t.status == st && t.cmd == w)

theorem test_reject_first_check : rejectWord 0x000000B1#32 0x00000016#32 = true := by decide +kernel
theorem test_reject_config : rejectWord 0x00005502#32 0x00000026#32 = true := by decide +kernel
theorem test_reject_order : rejectWord 0x00003102#32 0x00000036#32 = true := by decide +kernel
theorem test_reject_order_dmax : rejectWord 0x00009402#32 0x00000036#32 = true := by decide +kernel
theorem test_reject_not_supported : rejectWord 0x00006406#32 0x00000046#32 = true := by decide +kernel
/-- The host's fetch: the word is examined by the very next step and accepted. -/
theorem test_fetchWord : after (step (State.reset.withFetchWord 32 0x00002003)) (fun t =>
    statusWord t.status == 0x00000001#32 && t.cmd == 0x00002003#32) = true := by decide +kernel
/-- P5: a data write and a CMD write while BUSY. -/
theorem test_busy_write : after (step (facing (hostWr 0x100 0x55#32) (busyWith (.mask 0#2 2#5) [])))
    (fun t => statusWord t.status == 0x00000201#32 && t.sh[0][0] == 0#32) = true := by decide +kernel
theorem test_overrun : after (step (facing (hostWr 0x000 0#32) (busyWith (.mask 0#2 2#5) [])))
    (fun t => statusWord t.status == 0x00000101#32 && t.cmd == 0x00002003#32) = true := by decide +kernel
/-- P4: a misaligned write. -/
theorem test_misaligned : after (step (facing (hostWr 0x002 0#32) State.reset))
    (fun t => statusWord t.status == 0x00000400#32 && t.resp == .writeError) = true := by decide +kernel
/-- V19. -/
theorem test_read_param : after (step (facing (hostRd 0x010) State.reset)) (fun t => t.resp == .read 0x00001F08#32) = true := by
  decide +kernel
theorem test_read_row2_word3 : after (step (facing (hostRd 0x18C)
    { State.reset with sh := State.reset.sh.set 2 ((Vector.replicate 16 0#32).set 3 9#32) }))
    (fun t => t.resp == .read 9#32) = true := by decide +kernel
theorem test_reset_aborts : after (step (facing (.rst none) (busyWith (.mask 0#2 2#5) [1#32])))
    (fun t => t.cmd == 0#32 && !t.status.busy && t.got.isEmpty) = true := by decide +kernel

/-! ### Witnesses: a state and operands that meet each statement's hypotheses -/

theorem witness_DecodedWordIsItsEncoding : decode 0x00002306#32 = .ok (.maddKs 2#5) := by decide
/-- An accepted word and one rejected with each code. -/
theorem witness_CommandWriteFollowsCheckOrder :
    (facing (hostWr 0x000 0x00002003#32) State.reset).status.busy = false ∧
      (facing (hostWr 0x000 0x00002003#32) State.reset).sched = hostWr 0x000 0x00002003#32 :: [] ∧
      specReject 8 0x00002003#32 = none ∧ specReject 8 0x0000000A#32 = some 1 ∧ specReject 8 0x00000031#32 = some 2 ∧
      specReject 8 0x00009003#32 = some 3 ∧ specReject 8 0x00006406#32 = some 4 := by decide +kernel
theorem witness_RejectedWriteChangesOnlyCmdAndStatus :
    (facing (hostWr 0x000 0x00000031#32) State.reset).status.busy = false ∧
      (facing (hostWr 0x000 0x00000031#32) State.reset).sched = hostWr 0x000 0x00000031#32 :: [] ∧
      specReject (facing (hostWr 0x000 0x00000031#32) State.reset).cfg.dmax 0x00000031#32 = some 2 := by decide +kernel
/-- One ill-formed command per clause, at the edges of the orders accepted. -/
theorem witness_IllFormedCommandIsRejected :
    State.reset.status.busy = false ∧ (Instr.permute 3#2 false).wellFormed State.reset.cfg.dmax = false ∧
      (Instr.mask 3#2 2#5).wellFormed State.reset.cfg.dmax = false ∧
      (Instr.mask 2#2 9#5).wellFormed State.reset.cfg.dmax = false ∧
      (Instr.unmask 3#2 8#5).wellFormed State.reset.cfg.dmax = false ∧
      (Instr.unmask 0#2 1#5).wellFormed State.reset.cfg.dmax = false ∧
      (Instr.mpermuteBool 3#2 true 2#5).wellFormed State.reset.cfg.dmax = false ∧
      (Instr.mpermuteBool 0#2 true 9#5).wellFormed State.reset.cfg.dmax = false ∧
      (Instr.mpermuteConv 3#2 true 2#5).wellFormed State.reset.cfg.dmax = false ∧
      (Instr.mpermuteConv 0#2 true 3#5).wellFormed State.reset.cfg.dmax = false ∧
      (Instr.mpermuteGoubin 3#2 true 2#5).wellFormed State.reset.cfg.dmax = false ∧
      (Instr.mpermuteGoubin 0#2 true 1#5).wellFormed State.reset.cfg.dmax = false ∧
      (Instr.mpermuteKs 3#2 true 2#5).wellFormed State.reset.cfg.dmax = false ∧
      (Instr.mpermuteKs 1#2 true 4#5).wellFormed State.reset.cfg.dmax = false ∧
      (Instr.mpermuteHo 3#2 true 3#5).wellFormed State.reset.cfg.dmax = false ∧
      (Instr.mpermuteHo 0#2 true 3#5).wellFormed State.reset.cfg.dmax = false ∧
      (Instr.mpermuteHo 0#2 true 9#5).wellFormed State.reset.cfg.dmax = false ∧
      (Instr.maddHo 6#5).wellFormed State.reset.cfg.dmax = false ∧
      (Instr.maddHo 16#5).wellFormed State.reset.cfg.dmax = false ∧
      (Instr.secand 1#5).wellFormed State.reset.cfg.dmax = false := by decide +kernel
theorem witness_WellFormedCommandIsAccepted :
    State.reset.status.busy = false ∧ (Instr.maddBool 8#5).wellFormed State.reset.cfg.dmax = true := by decide +kernel
theorem witness_ReadyCommandCompletes : Ready (.secand 2#5) (busyWith (.secand 2#5) [1#32]) := by decide +kernel
theorem witness_EngineWaitsForWords :
    (busyWith (.secand 3#5) [1#32, 2#32]).status.busy = true ∧
      (Instr.secand 3#5).wellFormed (busyWith (.secand 3#5) [1#32, 2#32]).cfg.dmax = true ∧
      (busyWith (.secand 3#5) [1#32, 2#32]).got.length < draws (.secand 3#5) := by decide +kernel
theorem witness_AcceptedCommandRunsToCompletion :
    ({ State.reset with sched := hostWr 0x000 (encode .b2a) :: ([7#32].map Event.rng ++ [Event.engine]) } : State).status.busy = false ∧
      Instr.b2a.wellFormed State.reset.cfg.dmax = true ∧ [7#32].length = draws .b2a ∧
      ({ State.reset with sched := hostWr 0x000 (encode .b2a) :: ([7#32].map Event.rng ++ [Event.engine]) } : State).sched =
        hostWr 0x000 (encode .b2a) :: ([7#32].map Event.rng ++ [Event.engine]) := by decide +kernel
theorem witness_StepRunsWrittenCommand :
    (facing (hostWr 0x000 0x00000007#32) State.reset).status.busy = false ∧
      (facing (hostWr 0x000 0x00000007#32) State.reset).sched = hostWr 0x000 0x00000007#32 :: [] ∧
      decode 0x00000007#32 = .ok .b2a := by decide +kernel
theorem witness_StepRunsLatchedCommand :
    (busyWith .a2b [1#32]).status.busy = true ∧ decode (busyWith .a2b [1#32]).cmd = .ok .a2b ∧
      (busyWith .a2b [1#32]).sched = [] ∧ (facing .engine (busyWith .a2b [1#32])).sched = .engine :: [] := by
  decide +kernel
theorem witness_NopLeavesAllData : Ready .nop (busyWith .nop []) := by decide +kernel
theorem witness_ZeroizeClearsAllData : Ready .zeroize (busyWith .zeroize []) := by decide +kernel
theorem witness_PermuteRunsOnRowZero :
    Ready (.permute 0#2 false) (busyWith (.permute 0#2 false) []) ∧
      Ready (.permute 2#2 true) (busyWith (.permute 2#2 true) []) := by decide +kernel
theorem witness_RotationMovesBits : (31 : Nat) < 32 ∧ (31 : Nat) < 32 ∧ (0 : Nat) < 32 := by decide
theorem witness_LinearLayerIsLinear :
    ([⟨1#32, 2#32⟩, ⟨3#32, 4#32⟩] : List Branch).length = ([⟨5#32, 6#32⟩, ⟨7#32, 8#32⟩] : List Branch).length := by decide
theorem witness_PermutationIsInjective :
    (1#2 : BitVec 2) ≠ 3#2 ∧ (List.replicate 6 (⟨1#32, 2#32⟩ : Branch)).length = branches 1#2 ∧
      permute 2 (List.replicate 6 (⟨1#32, 2#32⟩ : Branch)) = permute 2 (List.replicate 6 ⟨1#32, 2#32⟩) := by
  refine ⟨by decide, by decide, rfl⟩
/-- Each scheme at the lowest and, where it has another, a higher order. -/
theorem witness_EveryAdderRecombinesToTheSum :
    Instr.wfScheme Config.default.dmax 2#5 .bool = true ∧ Instr.wfScheme Config.default.dmax 8#5 .bool = true ∧
      Instr.wfScheme Config.default.dmax 2#5 .conv = true ∧ Instr.wfScheme Config.default.dmax 2#5 .goubin = true ∧
      Instr.wfScheme Config.default.dmax 2#5 .ks = true ∧ Instr.wfScheme Config.default.dmax 2#5 .ho = true ∧
      Instr.wfScheme Config.default.dmax 8#5 .ho = true ∧ [1#32, 2#32].length = (2#5).toNat := by decide
theorem witness_DrawsConsumedAreTheCounts :
    Instr.wfScheme Config.default.dmax 2#5 .ks = true ∧ [1#32, 2#32].length = (2#5).toNat ∧
      ([[⟨0#32, 0#32⟩], [⟨0#32, 0#32⟩]] : List (List Branch)).length = (2#5).toNat := by decide
theorem witness_SecandRecombinesToTheAnd : Ready (.secand 8#5) (busyWith (.secand 8#5) (ctr 28)) := by decide +kernel
theorem witness_MaddBoolRecombinesToTheSum : Ready (.maddBool 2#5) (busyWith (.maddBool 2#5) (ctr 31)) := by
  decide +kernel
theorem witness_MaddConvClosedForm : Ready (.maddConv 2#5) (busyWith (.maddConv 2#5) (ctr 3)) := by decide +kernel
theorem witness_MaddGoubinClosedForm :
    Ready (.maddGoubin 2#5) (busyWith (.maddGoubin 2#5) [9#32]) ∧ (busyWith (.maddGoubin 2#5) [9#32]).got = 9#32 :: [] := by
  decide +kernel
theorem witness_MaddKsClosedForm : Ready (.maddKs 2#5) (busyWith (.maddKs 2#5) (ctr 2)) := by decide +kernel
/-- Both clauses on the order: d = 2 and d = 4. -/
theorem witness_MaddHoRecombinesToTheSum :
    Ready (.maddHo 2#5) (busyWith (.maddHo 2#5) (ctr 1)) ∧ (2#5).toNat = 2 ∧
      Ready (.maddHo 4#5) (busyWith (.maddHo 4#5) (ctr 3)) ∧ 4 ≤ (4#5).toNat := by decide +kernel
theorem witness_B2aClosedForm : Ready .b2a (busyWith .b2a (ctr 1)) := by decide +kernel
theorem witness_A2bClosedForm : Ready .a2b (busyWith .a2b (ctr 1)) := by decide +kernel
/-- The lowest and the highest order of the default build, the narrowest and the widest state. -/
theorem witness_MaskSplitsRowZero :
    Ready (.mask 0#2 2#5) (busyWith (.mask 0#2 2#5) (ctr 8)) ∧
      Ready (.mask 2#2 8#5) (busyWith (.mask 2#2 8#5) (ctr 112)) := by decide +kernel
theorem witness_UnmaskRecombinesIntoRowZero :
    Ready (.unmask 0#2 2#5) (busyWith (.unmask 0#2 2#5) []) ∧ Ready (.unmask 2#2 8#5) (busyWith (.unmask 2#2 8#5) []) := by
  decide +kernel
theorem witness_MaskThenUnmaskIsIdentity : ∃ t u, Ready (.mask 0#2 2#5) (busyWith (.mask 0#2 2#5) (ctr 8)) ∧
    exec (.mask 0#2 2#5) (busyWith (.mask 0#2 2#5) (ctr 8)) = .next t ∧ Ready (.unmask 0#2 2#5) u ∧ u.sh = t.sh :=
  ⟨_, { busyWith (.unmask 0#2 2#5) [] with
      sh := (complete 8 (maskResult 0#2 2#5 (ctr 8) (busyWith (.mask 0#2 2#5) (ctr 8)))).sh },
    witness_MaskSplitsRowZero.1, exec_completes witness_MaskSplitsRowZero.1, by decide +kernel, rfl⟩
/-- Each scheme. -/
theorem witness_MpermuteComputesPermuteOnTheValue :
    Ready (mpermuteOf .bool 0#2 false 2#5) (busyWith (.mpermuteBool 0#2 false 2#5) (List.replicate 3472 1#32)) ∧
      Ready (mpermuteOf .conv 0#2 false 2#5) (busyWith (.mpermuteConv 0#2 false 2#5) (ctr 336)) ∧
      Ready (mpermuteOf .goubin 0#2 false 2#5) (busyWith (.mpermuteGoubin 0#2 false 2#5) (ctr 112)) ∧
      Ready (mpermuteOf .ks 0#2 false 2#5) (busyWith (.mpermuteKs 0#2 false 2#5) (ctr 224)) ∧
      Ready (mpermuteOf .ho 0#2 false 4#5) (busyWith (.mpermuteHo 0#2 false 4#5) (ctr 336)) := by decide +kernel
/-- Two states that differ in a word the command does not use. -/
theorem witness_MpermuteReadsOnlyItsRows :
    Ready (mpermuteOf .ks 0#2 false 2#5) (busyWith (.mpermuteKs 0#2 false 2#5) (ctr 224)) ∧
      Ready (mpermuteOf .ks 0#2 false 2#5) { busyWith (.mpermuteKs 0#2 false 2#5) (ctr 224) with
        sh := State.reset.sh.set 2 (Vector.replicate 16 1#32) } ∧
      (busyWith (.mpermuteKs 0#2 false 2#5) (ctr 224)).got =
        ({ busyWith (.mpermuteKs 0#2 false 2#5) (ctr 224) with
          sh := State.reset.sh.set 2 (Vector.replicate 16 1#32) } : State).got ∧
      ∀ k w : Fin 16, k.val < (2#5).toNat → w.val < rowLen 0#2 →
        (busyWith (.mpermuteKs 0#2 false 2#5) (ctr 224)).sh[k][w] =
          (State.reset.sh.set 2 (Vector.replicate 16 1#32))[k][w] := by decide +kernel
theorem witness_PrimitiveCommandsWriteOnlyPz :
    (∃ t, exec (.secand 8#5) (busyWith (.secand 8#5) (ctr 28)) = .next t) ∧
      (∃ t, exec (maddOf .ks 2#5) (busyWith (.maddKs 2#5) (ctr 2)) = .next t) ∧
      (∃ t, exec .b2a (busyWith .b2a (ctr 1)) = .next t) ∧ (∃ t, exec .a2b (busyWith .a2b (ctr 1)) = .next t) :=
  ⟨⟨_, exec_completes witness_SecandRecombinesToTheAnd⟩, ⟨_, exec_completes witness_MaddKsClosedForm⟩,
    ⟨_, exec_completes witness_B2aClosedForm⟩, ⟨_, exec_completes witness_A2bClosedForm⟩⟩
theorem witness_ShareCommandsWriteOnlyTheirRows :
    (∃ t, exec (.permute 2#2 true) (busyWith (.permute 2#2 true) []) = .next t) ∧
      (∃ t, exec (.mask 2#2 8#5) (busyWith (.mask 2#2 8#5) (ctr 112)) = .next t) ∧
      (∃ t, exec (.unmask 2#2 8#5) (busyWith (.unmask 2#2 8#5) []) = .next t) ∧
      (∃ t, exec (mpermuteOf .ks 0#2 false 2#5) (busyWith (.mpermuteKs 0#2 false 2#5) (ctr 224)) = .next t) :=
  ⟨⟨_, exec_completes witness_PermuteRunsOnRowZero.2⟩, ⟨_, exec_completes witness_MaskSplitsRowZero.2⟩,
    ⟨_, exec_completes witness_UnmaskRecombinesIntoRowZero.2⟩,
    ⟨_, exec_completes witness_MpermuteReadsOnlyItsRows.1⟩⟩
theorem witness_CommandsKeepTheHostSide : ∃ t, exec .nop (busyWith .nop []) = .next t :=
  ⟨_, exec_completes witness_NopLeavesAllData⟩
/-- One transaction per ground of 60_exceptions.md R165, at the edges of the reserved ranges (DMAX = 8). -/
theorem witness_BadAccessSetsOnlyBuserr :
    (facing (hostWr 0x002 0#32) State.reset).sched = .bus ⟨0x002#12, .word, .write 0#32⟩ :: [] ∧
      specBusError 8 ⟨0x002#12, .word, .write 0#32⟩ ∧ specBusError 8 ⟨0x000#12, .narrow, .read⟩ ∧
      specBusError 8 ⟨0x018#12, .word, .read⟩ ∧ specBusError 8 ⟨0x03C#12, .word, .read⟩ ∧
      specBusError 8 ⟨0x060#12, .word, .read⟩ ∧ specBusError 8 ⟨0x0BC#12, .word, .read⟩ ∧
      specBusError 8 ⟨0x0FC#12, .word, .read⟩ ∧ specBusError 8 ⟨0x300#12, .word, .read⟩ ∧
      specBusError 8 ⟨0x00C#12, .word, .write 0#32⟩ ∧ specBusError 8 ⟨0x0DC#12, .word, .write 0#32⟩ ∧
      specBusError 8 ⟨0x004#12, .narrow, .write 0#32⟩ := by
  simp [facing, hostWr, specBusError, specReserved, specReadOnly]
theorem witness_BusErrorExactlyOnBadAccess :
    (∃ t, step (facing (hostRd 0x000) State.reset) = .next t) ∧
      ¬ specBusError 8 ⟨0x000#12, .word, .read⟩ ∧ ¬ specBusError 8 ⟨0x2FC#12, .word, .write 0#32⟩ ∧
      ¬ specBusError 8 ⟨0x0DC#12, .word, .read⟩ ∧ ¬ specBusError 8 ⟨0x004#12, .word, .read⟩ ∧
      ¬ ((0x004#12).toNat = 0x004 ∧ ∃ v, (⟨0x004#12, .word, .read⟩ : Txn).access = .write v) ∧
      specBusError 8 ⟨0x004#12, .narrow, .write 0#32⟩ := by
  refine ⟨⟨_, step_hostRd rfl⟩, ?_⟩
  simp [specBusError, specReserved, specReadOnly]
/-- The first and the last register of each region at DMAX = 8. -/
theorem witness_ReadsReturnTheRegister :
    (facing (hostRd 0x008) State.reset).sched = hostRd 0x008 :: [] ∧
      (facing (hostRd 0x00C) State.reset).sched = hostRd 0x00C :: [] ∧
      (facing (hostRd 0x010) State.reset).sched = hostRd 0x010 :: [] ∧ State.reset.status.busy = false ∧
      (0 : Fin 16).val < State.reset.cfg.dmax ∧ (7 : Fin 16).val < State.reset.cfg.dmax ∧
      0x0DC = 0x0C0 + 4 * (7 : Fin 16).val ∧ 0x2FC = 0x100 + 64 * (7 : Fin 16).val + 4 * (15 : Fin 16).val := by
  decide +kernel
theorem witness_ReadsHaveNoSideEffect :
    (facing (hostRd 0x100) (busyWith .nop [])).sched = .bus ⟨0x100#12, .word, .read⟩ :: [] ∧
      (⟨0x100#12, .word, .read⟩ : Txn).access = .read ∧ ¬ specBusError 8 ⟨0x100#12, .word, .read⟩ := by
  simp [facing, hostRd, specBusError, specReserved]
theorem witness_IdleDataWritesStore :
    State.reset.status.busy = false ∧ (7 : Fin 16).val < State.reset.cfg.dmax ∧
      (facing (hostWr (0x040 + 4 * 7) 1#32) State.reset).sched = hostWr (0x040 + 4 * (7 : Fin 16).val) 1#32 :: [] ∧
      (facing (hostWr (0x080 + 4 * 7) 1#32) State.reset).sched = hostWr (0x080 + 4 * (7 : Fin 16).val) 1#32 :: [] ∧
      (facing (hostWr 0x2FC 1#32) State.reset).sched =
        hostWr (0x100 + 64 * (7 : Fin 16).val + 4 * (15 : Fin 16).val) 1#32 :: [] := by decide +kernel
theorem witness_BusyDataWritesAreDropped :
    (facing (hostWr 0x2FC 1#32) (busyWith .nop [])).status.busy = true ∧
      7 < (facing (hostWr 0x2FC 1#32) (busyWith .nop [])).cfg.dmax ∧ 15 < 16 ∧ 0x2FC = 0x100 + 64 * 7 + 4 * 15 ∧
      (facing (hostWr 0x2FC 1#32) (busyWith .nop [])).sched = hostWr 0x2FC 1#32 :: [] := by decide +kernel
theorem witness_BusyCommandWriteIsAnOverrun :
    (facing (hostWr 0x000 9#32) (busyWith .nop [])).status.busy = true ∧
      (facing (hostWr 0x000 9#32) (busyWith .nop [])).sched = hostWr 0x000 9#32 :: [] := by decide +kernel
theorem witness_StatusWriteAcknowledges :
    (facing (hostWr 0x004 0x00000706#32) State.reset).sched = hostWr 0x004 0x00000706#32 :: [] ∧
      (0x00000706#32).getLsbD 1 = true ∧ (0x00000706#32).getLsbD 2 = true ∧ (0x00000706#32).getLsbD 8 = true ∧
      (0x00000706#32).getLsbD 9 = true ∧ (0x00000706#32).getLsbD 10 = true ∧ (0#32).getLsbD 1 = false ∧
      (0#32).getLsbD 2 = false ∧ (0#32).getLsbD 8 = false ∧ (0#32).getLsbD 9 = false ∧ (0#32).getLsbD 10 = false := by
  decide +kernel
theorem witness_StickyBitsOutliveOtherSteps :
    let s : State := { State.reset with
      status := { Status.reset with ovr := true, wbusy := true, buserr := true } }
    step s = .next s ∧ (∀ x, s.sched.head? ≠ some (.rst x)) ∧
      (∀ x v, s.sched.head? = some (.bus x) → x.access = .write v → x.off ≠ 0x004#12) ∧
      s.status.ovr = true ∧ s.status.wbusy = true ∧ s.status.buserr = true := by
  refine ⟨rfl, by simp [State.reset, State.resetOf], by simp [State.reset, State.resetOf], rfl, rfl, rfl⟩
theorem witness_CtrlHoldsOnlyIe :
    (facing (hostWr 0x008 3#32) State.reset).sched = hostWr 0x008 3#32 :: [] ∧
      (facing (hostRd 0x008) State.reset).sched = hostRd 0x008 :: [] := by decide +kernel
theorem witness_IdAndParamAreReadOnlyConstants :
    (facing (hostRd 0x00C) State.reset).sched = hostRd 0x00C :: [] ∧
      (facing (hostRd 0x010) State.reset).sched = hostRd 0x010 :: [] ∧ State.reset.cfg.dmax = 8 ∧
      (facing (hostWr 0x00C 1#32) State.reset).sched = hostWr 0x00C 1#32 :: [] ∧
      (facing (hostWr 0x010 1#32) State.reset).sched = hostWr 0x010 1#32 :: [] := by decide +kernel
theorem witness_StatusFieldsHaveTheirPlaces : (0 : Nat) < 32 ∧ (4 : Nat) < 32 ∧ (7 : Nat) < 32 ∧ (31 : Nat) < 32 := by decide
theorem witness_ResetClearsEverything :
    (facing (.rst (some ⟨0x100#12, .word, .read⟩)) (busyWith .nop [])).sched =
      .rst (some ⟨0x100#12, .word, .read⟩) :: [] := by decide +kernel
/-- A word still needed, one offered too many, and one offered to an idle engine. -/
theorem witness_RngWordIsConsumedWhenNeeded :
    (facing (.rng 5#32) (busyWith .b2a [])).sched = .rng 5#32 :: [] ∧
      (facing (.rng 5#32) (busyWith .b2a [])).status.busy = true ∧
      decode (facing (.rng 5#32) (busyWith .b2a [])).cmd = .ok .b2a ∧ (busyWith .b2a []).got.length < draws .b2a ∧
      ¬ (busyWith .b2a [1#32]).got.length < draws .b2a ∧
      (facing (.rng 5#32) State.reset).sched = .rng 5#32 :: [] ∧ (facing (.rng 5#32) State.reset).status.busy = false := by
  decide +kernel
/-- A completion; CMD writes of words rejected before and after they decode, and of one accepted; the other writes; a
reset. -/
theorem witness_InterruptFollowsDone :
    Ready .nop { busyWith .nop [] with ie := true } ∧ Ready .nop (busyWith .nop []) ∧
      ({ State.reset with ie := true } : State).status.busy = false ∧
      (facing (hostWr 0x000 0x0000000A#32) { State.reset with ie := true }).sched = hostWr 0x000 0x0000000A#32 :: [] ∧
      specReject 8 0x0000000A#32 = some 1 ∧ specReject 8 0x00020005#32 = some 1 ∧ specReject 8 0x00002506#32 = some 2 ∧
      specReject 8 0x00000031#32 = some 2 ∧ specReject 8 0x00000007#32 = none ∧
      (Instr.permute 3#2 true).wellFormed ({ State.reset with ie := true } : State).cfg.dmax = false ∧
      Instr.nop.wellFormed ({ State.reset with ie := true } : State).cfg.dmax = true ∧
      (facing (hostWr 0x008 1#32) State.reset).sched = hostWr 0x008 1#32 :: [] ∧
      (facing (hostWr 0x004 2#32) State.reset).sched = hostWr 0x004 2#32 :: [] ∧
      (facing (.rst none) (busyWith .nop [])).sched = .rst none :: [] := by decide +kernel
theorem witness_StepKeepsTheInvariant : State.reset.Inv ∧ step State.reset = .next State.reset := by
  refine ⟨⟨⟨fun h => absurd h (by decide), fun _ => rfl⟩, ⟨fun h => absurd h (by decide), fun h => absurd h (by decide), fun _ => rfl⟩, ?_⟩, rfl⟩
  unfold State.AbsentInv
  decide +kernel
theorem witness_NoStepStops : State.reset.Inv := witness_StepKeepsTheInvariant.1
theorem witness_BusyEngineOwnsTheData :
    (busyWith .b2a []).status.busy = true ∧ step (busyWith .b2a []) = .next (busyWith .b2a []) := by
  refine ⟨rfl, ?_⟩
  have h : step (busyWith .b2a []) = exec .b2a (busyWith .b2a []) := rfl
  rw [h, exec_eq]
  exact runCommand_waits rfl (by decide) (by decide)
theorem witness_BuildNeverChanges : ∃ t, step (facing (hostRd 0x000) State.reset) = .next t := ⟨_, step_hostRd rfl⟩

end Sys2Proof.Tests
end

section
/-! SUPPORT. Proofs of the statements of 00_scope.md: the build stays as it is (R5), and Permute is a permutation (R1). -/

namespace Sys2Proof.Machine

/-! ### The build is unchanged, operation by operation (00_scope.md R5) -/

@[simp] theorem resultOf_cfg (i : Instr) (ws : List Word) (s : State) : (resultOf i ws s).cfg = s.cfg := by
  rw [resultOf_control]

@[simp] theorem busRead_cfg (r : Option Reg) (s : State) : (busRead r s).cfg = s.cfg := by
  obtain ⟨-, h⟩ | ⟨_, _, -, -, h⟩ | ⟨_, -, -, h⟩ := busRead_cases r s <;> simp [h]

@[simp] theorem writeRefused_cfg (s : State) : (writeRefused s).cfg = s.cfg := rfl

@[simp] theorem offerWord_cfg (w : Word) (s : State) : (offerWord w s).cfg = s.cfg := by
  obtain ⟨-, h⟩ | ⟨-, h⟩ := offerWord_cases w s <;> rw [h]

@[simp] theorem resetStep_cfg (lost : Option Txn) (s : State) : (resetStep lost s).cfg = s.cfg := by
  cases lost with
  | none => rfl
  | some x => cases h : x.access <;> simp [resetStep, h, State.resetOf]

theorem DataStore.cfg_eq {store : State → State} (h : DataStore store) (s : State) : (store s).cfg = s.cfg := by
  cases h <;> rfl

theorem DataStore.writeData_cfg {store : State → State} (h : DataStore store) (s : State) :
    (writeData store s).cfg = s.cfg := by
  cases hb : s.status.busy
  · simp [writeData_idle hb, h.cfg_eq]
  · simp [writeData_busy hb]

section Steps

variable {s t : State}

theorem exec_cfg {i : Instr} (h : exec i s = .next t) : t.cfg = s.cfg := by
  obtain ⟨-, _, -, rfl⟩ | ⟨-, -, rfl⟩ | ⟨-, -, -, rfl⟩ | ⟨-, rfl⟩ := exec_cases h <;> simp

theorem engineStep_cfg (h : engineStep s = .next t) : t.cfg = s.cfg := by
  obtain ⟨-, rfl⟩ | ⟨-, _, -, hexec⟩ := engineStep_cases h
  · rfl
  · exact exec_cfg hexec

theorem writeCmd_cfg {w : Word} (h : writeCmd w s = .next t) : t.cfg = s.cfg := by
  obtain ⟨-, rfl⟩ | ⟨-, _, -, rfl⟩ | ⟨-, _, -, hexec⟩ := writeCmd_cases h
  · simp
  · simp
  · simpa using exec_cfg hexec

theorem busWrite_cfg {r : Option Reg} {v : Word} (h : busWrite r v s = .next t) : t.cfg = s.cfg := by
  obtain ⟨-, rfl⟩ | ⟨-, hcmd⟩ | ⟨-, rfl⟩ | ⟨-, rfl⟩ | ⟨_, hstore, rfl⟩ := busWrite_cases h
  · simp
  · exact writeCmd_cfg hcmd
  · simp
  · simp
  · exact hstore.writeData_cfg s

theorem busStep_cfg {x : Txn} (h : busStep x s = .next t) : t.cfg = s.cfg := by
  unfold busStep at h
  split at h
  · obtain rfl := Host.Outcome.next.inj h
    simp
  · exact busWrite_cfg h

theorem eventStep_cfg {e : Event} (h : eventStep e s = .next t) : t.cfg = s.cfg := by
  cases e with
  | bus x => exact busStep_cfg h
  | rng w => obtain rfl := Host.Outcome.next.inj h; simp
  | engine => exact engineStep_cfg h
  | rst lost => obtain rfl := Host.Outcome.next.inj h; simp

theorem step_cfg (h : step s = .next t) : t.cfg = s.cfg := by
  obtain ⟨-, hengine⟩ | ⟨_, _, -, hevent⟩ := step_cases h
  · exact engineStep_cfg hengine
  · simpa using eventStep_cfg hevent

end Steps

/-! ### Each part of a round is injective (40_permutation.md R85-R89) -/

/-- y is recovered from the step's two outputs, and then x (40_permutation.md R85). -/
theorem alzetteStep_injective (rc : Word) (sh : Nat × Nat) : Function.Injective (alzetteStep rc · sh) := by
  rintro ⟨x, y⟩ ⟨x', y'⟩ h
  simp only [alzetteStep, Branch.mk.injEq, BitVec.xor_left_inj] at h
  obtain ⟨hx, hy⟩ := h
  rw [hx, BitVec.xor_left_inj] at hy
  subst hy
  simpa using hx

theorem alzette_injective (rc : Word) : Function.Injective (alzette · rc) := by
  unfold alzette
  generalize alzetteShifts = shs
  induction shs with
  | nil => exact Function.injective_id
  | cons sh shs ih => exact ih.comp (alzetteStep_injective rc sh)

/-- A round's constants added twice cancel (40_permutation.md R86). -/
theorem constAdd_involutive (i : Nat) : Function.Involutive (constAdd i) := by
  intro S
  match S with
  | [] => rfl
  | [_] => rfl
  | b0 :: b1 :: bs => simp [constAdd]

/-- A state of at most eight branches has a constant for each, so Alzette acts on every branch (40_permutation.md
R87). -/
theorem eq_of_arxLayer_eq {S T : List Branch} (h8 : S.length ≤ 8) (hlen : S.length = T.length)
    (h : arxLayer S = arxLayer T) : S = T := by
  refine List.ext_getElem hlen fun k hS hT => ?_
  have hk : k < (arxLayer S).length := by rw [arxLayer_length S h8]; exact hS
  have hAt := List.getElem_of_eq h hk
  simp only [arxLayer, List.getElem_zipWith] at hAt
  exact alzette_injective _ hAt

@[ext] theorem Branch.ext {a b : Branch} (hx : a.x = b.x) (hy : a.y = b.y) : a = b := by
  cases a; cases b; simp_all

theorem branchAt_eq_getElem {S : List Branch} {k : Nat} (hk : k < S.length) : branchAt S k = S[k] := by
  simp [branchAt, hk]

theorem branchAt_take {S : List Branch} {n k : Nat} (hk : k < n) : branchAt (S.take n) k = branchAt S k := by
  simp [branchAt, hk]

theorem ext_branchAt {S T : List Branch} (hlen : S.length = T.length)
    (h : ∀ k < S.length, branchAt S k = branchAt T k) : S = T :=
  List.ext_getElem hlen fun k hS hT => by
    rw [← branchAt_eq_getElem hS, ← branchAt_eq_getElem hT, h k hS]

/-- The old left half stands in the image; with it known, each new left branch gives back one old right branch, at the
place its rotation took it from (40_permutation.md R88). -/
theorem eq_of_linear_eq {S T : List Branch} (h2 : S.length % 2 = 0) (hlen : S.length = T.length)
    (h : linear S = linear T) : S = T := by
  obtain ⟨hnew, htake⟩ := List.append_inj h (by simp [hlen])
  rw [← hlen] at hnew htake
  have hleft : ∀ k < S.length / 2, branchAt S k = branchAt T k := fun k hk => by
    rw [← branchAt_take hk, htake, branchAt_take hk]
  have hright : ∀ k < S.length / 2, branchAt S (k + S.length / 2) = branchAt T (k + S.length / 2) := by
    intro k hk
    have hrot : ((k + (S.length / 2 - 1)) % (S.length / 2) + 1) % (S.length / 2) = k := by
      rw [Nat.mod_add_mod, Nat.add_assoc, Nat.sub_add_cancel (by omega), Nat.add_mod_right, Nat.mod_eq_of_lt hk]
    have hAt := List.map_inj_left.mp hnew _ (List.mem_range.mpr (Nat.mod_lt (k + (S.length / 2 - 1)) (by omega)))
    simp only [hrot, htake, hleft k hk, Branch.mk.injEq, BitVec.xor_left_inj, BitVec.xor_right_inj] at hAt
    obtain ⟨hx, hy⟩ := hAt
    exact Branch.ext hx hy
  refine ext_branchAt hlen fun k hk => ?_
  obtain hlow | hhigh := Nat.lt_or_ge k (S.length / 2)
  · exact hleft k hlow
  · have hback := hright (k - S.length / 2) (by omega)
    rwa [Nat.sub_add_cancel hhigh] at hback

/-! ### Permute is injective on the states of each width (40_permutation.md R89, R90) -/

theorem arxLayer_constAdd_length (i : Nat) {S : List Branch} (h8 : S.length ≤ 8) :
    (arxLayer (constAdd i S)).length = S.length := by
  rw [arxLayer_length _ (by simpa using h8), constAdd_length]

theorem eq_of_round_eq {S T : List Branch} {i : Nat} (h8 : S.length ≤ 8) (h2 : S.length % 2 = 0)
    (hlen : S.length = T.length) (h : round S i = round T i) : S = T := by
  have hS := arxLayer_constAdd_length i h8
  have hT := arxLayer_constAdd_length i (hlen ▸ h8)
  have harx : arxLayer (constAdd i S) = arxLayer (constAdd i T) :=
    eq_of_linear_eq (by rw [hS, h2]) (by rw [hS, hT, hlen]) h
  exact (constAdd_involutive i).injective (eq_of_arxLayer_eq (by simpa using h8) (by simpa using hlen) harx)

theorem eq_of_permute_eq (n : Nat) {S T : List Branch} (h8 : S.length ≤ 8) (h2 : S.length % 2 = 0)
    (hlen : S.length = T.length) (h : permute n S = permute n T) : S = T := by
  have hS (m : Nat) : (permute m S).length = S.length := permute_length m S h8 h2
  have hT (m : Nat) : (permute m T).length = T.length := permute_length m T (hlen ▸ h8) (hlen ▸ h2)
  induction n with
  | zero => exact h
  | succ n ih =>
    rw [permute_succ, permute_succ] at h
    exact ih (eq_of_round_eq (by rw [hS]; exact h8) (by rw [hS]; exact h2) (by rw [hS, hT, hlen]) h)

end Sys2Proof.Machine

/-! ### The statements -/

namespace Sys2Proof.Proofs

open Sys2Proof.Machine

/-- Settles O18: a round is injective on an even number of branches, at most eight, and so is any number of them. -/
theorem permutationIsInjective : Obligations.PermutationIsInjective := by
  intro nb n S T _ hS hT h
  obtain ⟨h8, h2⟩ := branches_shape nb
  rw [← hS] at h8 h2
  exact eq_of_permute_eq n h8 h2 (hS.trans hT.symm) h

/-- Settles O59, operation by operation down to the step. -/
theorem buildNeverChanges : Obligations.BuildNeverChanges := fun _ _ => step_cfg

end Sys2Proof.Proofs
end

section
/-! SUPPORT. Proofs of the statements of 10_state.md: the invariant of a run (R27, R31, R32), the data registers a
command writes (R21-R24), and the control registers' words (R27-R30). -/

namespace Sys2Proof.Machine

/-! ### STATUS, CTRL and PARAM as words (10_state.md R27, R28, R30) -/

theorem getLsbD_packBits (bs : List Bool) {k : Nat} (hk : k < 32) : (packBits bs).getLsbD k = bs.getD k false := by
  induction bs generalizing k with
  | nil => simp [packBits]
  | cons b bs ih =>
    have hcons : packBits (b :: bs) = (packBits bs <<< 1) ||| (if b then 1#32 else 0#32) := rfl
    rw [hcons, BitVec.getLsbD_or, BitVec.getLsbD_shiftLeft]
    cases k with
    | zero => cases b <;> simp
    | succ k => cases b <;> simp [hk, ih (Nat.lt_of_succ_lt hk)]

theorem statusWord_reset : statusWord Status.reset = 0#32 := by decide

theorem ctrlWord_eq (ie : Bool) : ctrlWord ie = if ie then 1#32 else 0#32 := by cases ie <;> rfl

/-- The two fields of PARAM do not overlap, so their union is their sum. -/
theorem paramWord_toNat (c : Config) : (paramWord c).toNat = 0x1F00 + c.dmax := by
  obtain ⟨-, h16⟩ := c.legal
  have hsum : 31 <<< 8 + c.dmax = 31 <<< 8 ||| c.dmax := Nat.shiftLeft_add_eq_or_of_lt (by omega) 31
  rw [paramWord, BitVec.toNat_or, BitVec.toNat_ofNat, Nat.mod_eq_of_lt (by omega), Nat.lor_comm]
  exact hsum.symm

theorem paramWord_eq (c : Config) : paramWord c = BitVec.ofNat 32 (0x1F00 + c.dmax) := by
  rw [← paramWord_toNat, BitVec.ofNat_toNat, BitVec.setWidth_eq]

theorem paramWord_field (c : Config) (start len : Nat) :
    ((paramWord c).extractLsb' start len).toNat = (0x1F00 + c.dmax) / 2 ^ start % 2 ^ len := by
  rw [BitVec.extractLsb'_toNat, paramWord_toNat, Nat.shiftRight_eq_div_pow]

/-- DMAX is at most 16, so it stays within bits 4:0 and bits 7:5 are 0. -/
theorem paramWord_fields (c : Config) :
    ((paramWord c).extractLsb' 0 5).toNat = c.dmax ∧ (paramWord c).extractLsb' 5 3 = 0#3 ∧
      (paramWord c).extractLsb' 8 5 = 31#5 ∧ (paramWord c).extractLsb' 13 19 = 0#19 := by
  obtain ⟨-, h16⟩ := c.legal
  simp only [← BitVec.toNat_inj, paramWord_field, BitVec.toNat_ofNat]
  omega

/-! ### RNG_READY (10_state.md R35) -/

theorem rngReady_idle {s : State} (hb : s.status.busy = false) : rngReady s = false := by
  simp [rngReady, wordsMissing, hb]

theorem rngReady_busy {s : State} {i : Instr} (hb : s.status.busy = true) (hd : decode s.cmd = .ok i) :
    rngReady s = true ↔ s.got.length < draws i := by
  simp [rngReady, wordsMissing, hb, hd]

theorem offerWord_idle (w : Word) {s : State} (hb : s.status.busy = false) : offerWord w s = s := by
  simp [offerWord, rngReady_idle hb]

theorem offerWord_busy (w : Word) {s : State} {i : Instr} (hb : s.status.busy = true) (hd : decode s.cmd = .ok i) :
    offerWord w s = if s.got.length < draws i then { s with got := s.got ++ [w] } else s := by
  simp [offerWord, rngReady_busy hb hd]

/-! ### The data registers a command writes (10_state.md R21, R24) -/

@[simp] theorem resultOf_maddOf (sch : Scheme) (o : BitVec 5) : resultOf (maddOf sch o) = maddResult sch o := by
  cases sch <;> rfl

@[simp] theorem resultOf_mpermuteOf (sch : Scheme) (nb : BitVec 2) (f : Bool) (o : BitVec 5) :
    resultOf (mpermuteOf sch nb f o) = mpermuteResult sch nb f o := by
  cases sch <;> rfl

@[simp] theorem wellFormed_maddOf (dmax : Nat) (sch : Scheme) (o : BitVec 5) :
    (maddOf sch o).wellFormed dmax = Instr.wfScheme dmax o sch := by
  cases sch <;> rfl

@[simp] theorem wellFormed_mpermuteOf (dmax : Nat) (sch : Scheme) (nb : BitVec 2) (f : Bool) (o : BitVec 5) :
    (mpermuteOf sch nb f o).wellFormed dmax = (Instr.wfNb nb && Instr.wfScheme dmax o sch) := by
  cases sch <;> rfl

/-- `i` is a primitive command of order `d`: SECAND, MADD, or B2A and A2B of two shares (41_secure_adders.md
R115-R122). -/
def WritesPz (i : Instr) (d : Nat) : Prop :=
  (∃ o : BitVec 5, d = o.toNat ∧ (i = .secand o ∨ ∃ sch, i = maddOf sch o)) ∨ (d = 2 ∧ (i = .b2a ∨ i = .a2b))

/-- `i` works on rows 0..d-1 of the share RAM at the width `nb`: PERMUTE on one row, MASK, UNMASK and MPERMUTE on as many
as their order (10_state.md R21). -/
def WritesRows (i : Instr) (nb : BitVec 2) (d : Nat) : Prop :=
  (d = 1 ∧ ∃ f, i = .permute nb f) ∨
    (∃ o : BitVec 5, d = o.toNat ∧ (i = .mask nb o ∨ i = .unmask nb o ∨ ∃ sch f, i = mpermuteOf sch nb f o))

theorem writes_cases (i : Instr) :
    i = .nop ∨ i = .zeroize ∨ (∃ d, WritesPz i d) ∨ ∃ nb d, WritesRows i nb d := by
  cases i with
  | nop => exact .inl rfl
  | zeroize => exact .inr (.inl rfl)
  | secand o => exact .inr (.inr (.inl ⟨_, .inl ⟨o, rfl, .inl rfl⟩⟩))
  | maddBool o => exact .inr (.inr (.inl ⟨_, .inl ⟨o, rfl, .inr ⟨.bool, rfl⟩⟩⟩))
  | maddConv o => exact .inr (.inr (.inl ⟨_, .inl ⟨o, rfl, .inr ⟨.conv, rfl⟩⟩⟩))
  | maddGoubin o => exact .inr (.inr (.inl ⟨_, .inl ⟨o, rfl, .inr ⟨.goubin, rfl⟩⟩⟩))
  | maddKs o => exact .inr (.inr (.inl ⟨_, .inl ⟨o, rfl, .inr ⟨.ks, rfl⟩⟩⟩))
  | maddHo o => exact .inr (.inr (.inl ⟨_, .inl ⟨o, rfl, .inr ⟨.ho, rfl⟩⟩⟩))
  | b2a => exact .inr (.inr (.inl ⟨_, .inr ⟨rfl, .inl rfl⟩⟩))
  | a2b => exact .inr (.inr (.inl ⟨_, .inr ⟨rfl, .inr rfl⟩⟩))
  | permute nb f => exact .inr (.inr (.inr ⟨nb, _, .inl ⟨rfl, f, rfl⟩⟩))
  | mask nb o => exact .inr (.inr (.inr ⟨nb, _, .inr ⟨o, rfl, .inl rfl⟩⟩))
  | unmask nb o => exact .inr (.inr (.inr ⟨nb, _, .inr ⟨o, rfl, .inr (.inl rfl)⟩⟩))
  | mpermuteBool nb f o => exact .inr (.inr (.inr ⟨nb, _, .inr ⟨o, rfl, .inr (.inr ⟨.bool, f, rfl⟩)⟩⟩))
  | mpermuteConv nb f o => exact .inr (.inr (.inr ⟨nb, _, .inr ⟨o, rfl, .inr (.inr ⟨.conv, f, rfl⟩)⟩⟩))
  | mpermuteGoubin nb f o => exact .inr (.inr (.inr ⟨nb, _, .inr ⟨o, rfl, .inr (.inr ⟨.goubin, f, rfl⟩)⟩⟩))
  | mpermuteKs nb f o => exact .inr (.inr (.inr ⟨nb, _, .inr ⟨o, rfl, .inr (.inr ⟨.ks, f, rfl⟩)⟩⟩))
  | mpermuteHo nb f o => exact .inr (.inr (.inr ⟨nb, _, .inr ⟨o, rfl, .inr (.inr ⟨.ho, f, rfl⟩)⟩⟩))

theorem WritesPz.le_dmax {i : Instr} {d : Nat} (c : Config) (hi : WritesPz i d)
    (hw : i.wellFormed c.dmax = true) : d ≤ c.dmax := by
  obtain ⟨o, rfl, rfl | ⟨sch, rfl⟩⟩ | ⟨rfl, -⟩ := hi
  · exact (wfOrder_bounds hw).2
  · exact (wfScheme_bounds c (by simpa using hw)).2
  · exact c.legal.1

/-- A share command needs at least one row: row 0 is always written. -/
theorem WritesRows.bounds {i : Instr} {nb : BitVec 2} {d : Nat} (c : Config) (hi : WritesRows i nb d)
    (hw : i.wellFormed c.dmax = true) : 1 ≤ d ∧ d ≤ c.dmax := by
  obtain ⟨h2, -⟩ := c.legal
  obtain ⟨rfl, -⟩ | ⟨o, rfl, hcase⟩ := hi
  · omega
  · have ho : 2 ≤ o.toNat ∧ o.toNat ≤ c.dmax := by
      obtain rfl | rfl | ⟨sch, f, rfl⟩ := hcase
      · exact wfOrder_bounds ((Bool.and_eq_true _ _).mp hw).2
      · exact wfOrder_bounds ((Bool.and_eq_true _ _).mp hw).2
      · exact wfScheme_bounds c ((Bool.and_eq_true _ _).mp (wellFormed_mpermuteOf .. ▸ hw)).2
    omega

/-- An accepted primitive command writes d shares to PZ. -/
theorem WritesPz.resultOf_eq {i : Instr} {d : Nat} (c : Config) (hi : WritesPz i d)
    (hw : i.wellFormed c.dmax = true) (ws : List Word) (s : State) :
    ∃ zs, zs.length = d ∧ resultOf i ws s = setPz zs s := by
  have hd := hi.le_dmax c hw
  obtain ⟨-, h16⟩ := c.legal
  obtain ⟨o, rfl, rfl | ⟨sch, rfl⟩⟩ | ⟨rfl, rfl | rfl⟩ := hi
  · exact ⟨_, by simp [secAndW_length]; omega, rfl⟩
  · exact ⟨_, maddShares_length c s ws (by simpa using hw), by rw [resultOf_maddOf]; rfl⟩
  · exact ⟨_, rfl, rfl⟩
  · exact ⟨_, rfl, rfl⟩

theorem Shape.cons {α : Type} {d n : Nat} {row : List α} {rows : List (List α)} (hrow : row.length = n)
    (h : Shape (d - 1) n rows) (hd : 1 ≤ d) : Shape d n (row :: rows) := by
  obtain ⟨hlen, hrows⟩ := h
  exact ⟨by rw [List.length_cons, hlen]; omega, List.forall_mem_cons.mpr ⟨hrow, hrows⟩⟩

/-- An accepted share command writes 2nb words to each of d rows. -/
theorem WritesRows.resultOf_eq {i : Instr} {nb : BitVec 2} {d : Nat} (c : Config) (hi : WritesRows i nb d)
    (hw : i.wellFormed c.dmax = true) (ws : List Word) (s : State) :
    ∃ rows, Shape d (rowLen nb) rows ∧ resultOf i ws s = setShareRows rows s := by
  obtain ⟨hd, -⟩ := hi.bounds c hw
  obtain ⟨rfl, f, rfl⟩ | ⟨o, rfl, rfl | rfl | ⟨sch, f, rfl⟩⟩ := hi
  · exact ⟨_, (shareRows_shape 1 _ s (by decide) (rowLen_le nb)).map _ fun r hr => permuteWords_length _ nb r hr, rfl⟩
  · exact ⟨_, (randRows_shape _ _ ws).cons (xorRows_length _ _) hd, rfl⟩
  · have hzero : Shape (o.toNat - 1) (rowLen nb) (List.replicate (o.toNat - 1) (List.replicate (rowLen nb) 0#32)) :=
      ⟨List.length_replicate, fun r hr => by rw [List.eq_of_mem_replicate hr, List.length_replicate]⟩
    exact ⟨_, hzero.cons (xorRows_length _ _) hd, rfl⟩
  · rw [wellFormed_mpermuteOf, Bool.and_eq_true] at hw
    exact ⟨_, mpermuteRows_shape c nb _ s ws hw.2, by rw [resultOf_mpermuteOf]; rfl⟩

/-- A step of a command writes no data register, or it completes and they hold the command's result. -/
theorem exec_data {i : Instr} {s t : State} (h : exec i s = .next t) :
    SameData s t ∨ (i.wellFormed s.cfg.dmax = true ∧ SameData (resultOf i s.got s) t) := by
  obtain ⟨-, _, -, rfl⟩ | ⟨-, -, rfl⟩ | ⟨-, -, -, rfl⟩ | ⟨⟨-, hw, -⟩, rfl⟩ := exec_cases h
  · exact .inl ⟨rfl, rfl, rfl, rfl⟩
  · exact .inl ⟨rfl, rfl, rfl, rfl⟩
  · exact .inl ⟨rfl, rfl, rfl, rfl⟩
  · exact .inr ⟨hw, rfl, rfl, rfl, rfl⟩

theorem setPz_pz_of_le {zs : List Word} {k : Fin 16} (h : zs.length ≤ k.val) (s : State) :
    (setPz zs s).pz[k] = s.pz[k] :=
  splice_getElem_ge zs s.pz k.val k.isLt h

/-- Writing d rows of n words leaves the rows from d on and the words from n on. -/
theorem setShareRows_sh_of_le {d n : Nat} {rows : List (List Word)} (h : Shape d n rows) {k w : Fin 16}
    (hkw : d ≤ k.val ∨ n ≤ w.val) (s : State) : (setShareRows rows s).sh[k][w] = s.sh[k][w] := by
  obtain ⟨hlen, hrows⟩ := h
  have hcell := setShareRows_sh_getElem rows s k.val w.val k.isLt w.isLt
  by_cases hk : k.val < rows.length
  · have hw : ¬ w.val < rows[k.val].length := by
      have := hrows _ (List.getElem_mem hk)
      omega
    rw [dif_pos hk, dif_neg hw] at hcell
    exact hcell
  · rw [dif_neg hk] at hcell
    exact hcell

/-! ### The invariant, operation by operation (10_state.md R27, R31, R32)

The invariant does not speak of the bus's answer, IE, the schedule, the free values or the sticky STATUS bits, so for the
operations on those it is the same statement before and after. -/

@[simp] theorem respond_inv (r : BusResp) (s : State) : (respond r s).Inv ↔ s.Inv := Iff.rfl
@[simp] theorem respondFree_inv (r : Word → BusResp) (s : State) : (respondFree r s).Inv ↔ s.Inv := Iff.rfl
@[simp] theorem setBuserr_inv (s : State) : (setBuserr s).Inv ↔ s.Inv := Iff.rfl
@[simp] theorem setOvr_inv (s : State) : (setOvr s).Inv ↔ s.Inv := Iff.rfl
@[simp] theorem setWbusy_inv (s : State) : (setWbusy s).Inv ↔ s.Inv := Iff.rfl
theorem withSched_inv (es : List Event) (s : State) : ({ s with sched := es } : State).Inv ↔ s.Inv := Iff.rfl

theorem resetOf_inv (c : Config) : (State.resetOf c).Inv := by
  refine ⟨⟨nofun, fun _ => rfl⟩, ⟨nofun, nofun, fun _ => rfl⟩, fun k _ => ?_⟩
  simp [State.resetOf]

theorem resetStep_eq (lost : Option Txn) (s : State) :
    ∃ r f, resetStep lost s = { State.resetOf s.cfg with sched := s.sched, resp := r, free := f } := by
  cases lost with
  | none => exact ⟨_, _, rfl⟩
  | some x =>
    obtain ⟨off, width, _ | v⟩ := x
    · exact ⟨_, _, rfl⟩
    · exact ⟨_, _, rfl⟩

theorem resetStep_inv (lost : Option Txn) (s : State) : (resetStep lost s).Inv := by
  obtain ⟨r, f, heq⟩ := resetStep_eq lost s
  rw [heq]
  exact resetOf_inv s.cfg

section Keeps

variable {s t : State}

theorem errCode_bounds (c : CmdError) : 1 ≤ (errCode c).toNat ∧ (errCode c).toNat ≤ 4 := by
  cases c <;> decide

theorem latch_inv (w : Word) (hb : s.status.busy = false) (hs : s.Inv) : (latch w s).Inv := by
  obtain ⟨⟨-, hidle⟩, hflags, habsent⟩ := hs
  exact ⟨⟨fun h => absurd h (by simp [hb]), hidle⟩, hflags, habsent⟩

theorem reject_inv (c : CmdError) (hb : s.status.busy = false) (hs : s.Inv) : (reject c s).Inv := by
  obtain ⟨hengine, -, habsent⟩ := hs
  exact ⟨hengine, ⟨fun h => absurd h (by simp [hb]), fun _ => errCode_bounds c, nofun⟩, habsent⟩

theorem accept_inv {i : Instr} (hd : decode s.cmd = .ok i) (hw : i.wellFormed s.cfg.dmax = true) (hs : s.Inv) :
    (accept s).Inv := by
  obtain ⟨-, -, habsent⟩ := hs
  exact ⟨⟨fun _ => ⟨i, hd, hw, Nat.zero_le _⟩, nofun⟩, ⟨fun _ => ⟨rfl, rfl, rfl⟩, nofun, fun _ => rfl⟩, habsent⟩

theorem complete_inv (n : Nat) (hs : s.FlagInv) (habsent : s.AbsentInv) : (complete n s).Inv := by
  obtain ⟨-, herr⟩ := hs
  exact ⟨⟨nofun, fun _ => rfl⟩, ⟨nofun, herr⟩, habsent⟩

theorem offerWord_inv (w : Word) (hs : s.Inv) : (offerWord w s).Inv := by
  cases hb : s.status.busy
  · rwa [offerWord_idle w hb]
  · have ⟨⟨hbusy, _⟩, hflags, habsent⟩ := hs
    obtain ⟨i, hd, hw, -⟩ := hbusy hb
    rw [offerWord_busy w hb hd]
    split
    next hlt =>
      refine ⟨⟨fun _ => ⟨i, hd, hw, ?_⟩, fun h => absurd h (by simp [hb])⟩, hflags, habsent⟩
      rwa [List.length_append]
    next => exact hs

/-- Clearing ERR clears ERRCODE with it (10_state.md R27). -/
theorem acknowledge_inv (w : Word) (hs : s.Inv) : ({ s with status := acknowledge w s.status } : State).Inv := by
  obtain ⟨hengine, ⟨hbusy, hset, hclear⟩, habsent⟩ := hs
  refine ⟨hengine, ⟨fun hb => ?_, fun he => ?_, fun he => ?_⟩, habsent⟩
  · obtain ⟨hdone, herr, hcnt⟩ := hbusy hb
    exact ⟨by simp [hdone], by simp [herr], hcnt⟩
  · obtain ⟨herr, hbit⟩ : s.status.err = true ∧ w[2] = false := by simpa using he
    simpa [hbit] using hset herr
  · cases hbit : w[2]
    · have herr : s.status.err = false := by simpa [hbit] using he
      simpa [hbit] using hclear herr
    · simp [hbit]

/-! ### The absent slots stay empty (20_memory.md R41) -/

theorem setPz_absentInv {zs : List Word} (hlen : zs.length ≤ s.cfg.dmax) (hs : s.AbsentInv) :
    (setPz zs s).AbsentInv := fun k hk => by
  obtain ⟨hpx, hpy, hpz, hsh⟩ := hs k hk
  exact ⟨hpx, hpy, by rw [setPz_pz_of_le (hlen.trans hk), hpz], hsh⟩

theorem setShareRows_absentInv {d n : Nat} {rows : List (List Word)} (hrows : Shape d n rows) (hd : d ≤ s.cfg.dmax)
    (hs : s.AbsentInv) : (setShareRows rows s).AbsentInv := fun k hk => by
  obtain ⟨hpx, hpy, hpz, hsh⟩ := hs k hk
  exact ⟨hpx, hpy, hpz, fun w => by rw [setShareRows_sh_of_le hrows (.inl (hd.trans hk)), hsh]⟩

theorem resultOf_absentInv {i : Instr} (ws : List Word) (hw : i.wellFormed s.cfg.dmax = true) (hs : s.AbsentInv) :
    (resultOf i ws s).AbsentInv := by
  obtain rfl | rfl | ⟨d, hi⟩ | ⟨nb, d, hi⟩ := writes_cases i
  · exact hs
  · intro k _
    simp [resultOf, zeroizeResult]
  · obtain ⟨zs, hlen, heq⟩ := hi.resultOf_eq s.cfg hw ws s
    rw [heq]
    exact setPz_absentInv (hlen ▸ hi.le_dmax s.cfg hw) hs
  · obtain ⟨rows, hrows, heq⟩ := hi.resultOf_eq s.cfg hw ws s
    rw [heq]
    exact setShareRows_absentInv hrows (hi.bounds s.cfg hw).2 hs

/-! ### The slot of a register at an offset is one the build has (20_memory.md R41) -/

/-- The build has the register's slot or row. -/
def Reg.InBuild (dmax : Nat) : Reg → Prop
  | .px k => k.val < dmax
  | .py k => k.val < dmax
  | .pz k => k.val < dmax
  | .sh k _ => k.val < dmax
  | _ => True

theorem slot_lt {dmax n : Nat} {k : Fin 16} (h : slot dmax n = some k) : k.val < dmax := by
  unfold slot at h
  split at h
  · split at h
    · cases h; assumption
    · cases h
  · cases h

theorem map_slot_inBuild {dmax n : Nat} {f : Fin 16 → Reg} {q : Reg} (h : (slot dmax n).map f = some q)
    (hf : ∀ k : Fin 16, k.val < dmax → (f k).InBuild dmax) : q.InBuild dmax := by
  obtain ⟨k, hk, rfl⟩ := Option.map_eq_some_iff.mp h
  exact hf k (slot_lt hk)

theorem regAt_inBuild {dmax : Nat} {off : BitVec 12} {q : Reg} (h : regAt dmax off = some q) : q.InBuild dmax := by
  unfold regAt at h
  dsimp only at h
  split at h
  · cases h
  split at h
  · split at h <;> cases h <;> trivial
  split at h
  · cases h
  split at h
  · exact map_slot_inBuild h fun _ hk => hk
  split at h
  · exact map_slot_inBuild h fun _ hk => hk
  split at h
  · exact map_slot_inBuild h fun _ hk => hk
  · exact map_slot_inBuild h fun _ hk => hk

theorem target_inBuild {x : Txn} {q : Reg} (h : target s x = some q) : q.InBuild s.cfg.dmax := by
  unfold target at h
  split at h
  · exact regAt_inBuild h
  · cases h

/-! ### Host transactions keep the invariant -/

theorem getElem_set_of_absent {α : Type} (v : Vector α 16) (x : α) {d : Nat} {k j : Fin 16} (hk : k.val < d)
    (hj : d ≤ j.val) : (v.set k x)[j] = v[j] :=
  Vector.getElem_set_ne _ _ (by omega)

theorem writePx_inv {k : Fin 16} (v : Word) (hk : k.val < s.cfg.dmax) (hs : s.Inv) :
    ({ s with px := s.px.set k v } : State).Inv := by
  obtain ⟨hengine, hflags, habsent⟩ := hs
  refine ⟨hengine, hflags, fun j hj => ?_⟩
  obtain ⟨hpx, hrest⟩ := habsent j hj
  exact ⟨(getElem_set_of_absent _ _ hk hj).trans hpx, hrest⟩

theorem writePy_inv {k : Fin 16} (v : Word) (hk : k.val < s.cfg.dmax) (hs : s.Inv) :
    ({ s with py := s.py.set k v } : State).Inv := by
  obtain ⟨hengine, hflags, habsent⟩ := hs
  refine ⟨hengine, hflags, fun j hj => ?_⟩
  obtain ⟨hpx, hpy, hrest⟩ := habsent j hj
  exact ⟨hpx, (getElem_set_of_absent _ _ hk hj).trans hpy, hrest⟩

theorem writeSh_inv {k : Fin 16} (row : Vector Word 16) (hk : k.val < s.cfg.dmax) (hs : s.Inv) :
    ({ s with sh := s.sh.set k row } : State).Inv := by
  obtain ⟨hengine, hflags, habsent⟩ := hs
  refine ⟨hengine, hflags, fun j hj => ?_⟩
  obtain ⟨hpx, hpy, hpz, hsh⟩ := habsent j hj
  exact ⟨hpx, hpy, hpz, fun w => (congrArg (·[w]) (getElem_set_of_absent s.sh row hk hj)).trans (hsh w)⟩

theorem writeData_inv {store : State → State} (hstore : (store s).Inv) (hs : s.Inv) : (writeData store s).Inv := by
  cases hb : s.status.busy
  · rwa [writeData_idle hb, respond_inv]
  · rwa [writeData_busy hb, respond_inv, setWbusy_inv]

/-- The command that runs is the one CMD holds. -/
theorem exec_inv {i : Instr} (hd : decode s.cmd = .ok i) (hs : s.Inv) (h : exec i s = .next t) : t.Inv := by
  obtain ⟨hb, c, -, rfl⟩ | ⟨-, hw, rfl⟩ | ⟨-, -, -, rfl⟩ | ⟨⟨-, hw, -⟩, rfl⟩ := exec_cases h
  · exact reject_inv c hb hs
  · exact accept_inv hd hw hs
  · exact hs
  · obtain ⟨-, hflags, habsent⟩ := hs
    refine complete_inv _ ?_ (resultOf_absentInv s.got hw habsent)
    rw [resultOf_control]
    exact hflags

theorem engineStep_inv (hs : s.Inv) (h : engineStep s = .next t) : t.Inv := by
  obtain ⟨-, rfl⟩ | ⟨-, i, hd, hexec⟩ := engineStep_cases h
  · exact hs
  · exact exec_inv hd hs hexec

theorem writeCmd_inv {w : Word} (hs : s.Inv) (h : writeCmd w s = .next t) : t.Inv := by
  obtain ⟨-, rfl⟩ | ⟨hb, c, -, rfl⟩ | ⟨hb, i, hd, hexec⟩ := writeCmd_cases h
  · simpa using hs
  · exact reject_inv c hb (latch_inv w hb hs)
  · exact exec_inv hd (latch_inv w hb hs) hexec

theorem busRead_inv (r : Option Reg) (hs : s.Inv) : (busRead r s).Inv := by
  obtain ⟨-, h⟩ | ⟨_, _, -, -, h⟩ | ⟨_, -, -, h⟩ := busRead_cases r s <;> simpa [h] using hs

theorem busWrite_inv {r : Option Reg} {v : Word} (hr : ∀ q, r = some q → q.InBuild s.cfg.dmax) (hs : s.Inv)
    (h : busWrite r v s = .next t) : t.Inv := by
  match r, hr, h with
  | some .cmd, _, h => exact writeCmd_inv hs h
  | some .status, _, h => obtain rfl := Host.Outcome.next.inj h; exact acknowledge_inv v hs
  | some (.px _), hr, h => obtain rfl := Host.Outcome.next.inj h; exact writeData_inv (writePx_inv v (hr _ rfl) hs) hs
  | some (.py _), hr, h => obtain rfl := Host.Outcome.next.inj h; exact writeData_inv (writePy_inv v (hr _ rfl) hs) hs
  | some (.sh _ _), hr, h => obtain rfl := Host.Outcome.next.inj h; exact writeData_inv (writeSh_inv _ (hr _ rfl) hs) hs
  | none, _, h | some .ctrl, _, h | some .id, _, h | some .param, _, h | some .rngcnt, _, h | some (.pz _), _, h =>
    obtain rfl := Host.Outcome.next.inj h
    exact hs

theorem busStep_inv {x : Txn} (hs : s.Inv) (h : busStep x s = .next t) : t.Inv := by
  unfold busStep at h
  split at h
  · obtain rfl := Host.Outcome.next.inj h
    exact busRead_inv _ hs
  · exact busWrite_inv (fun _ => target_inBuild) hs h

theorem eventStep_inv {e : Event} (hs : s.Inv) (h : eventStep e s = .next t) : t.Inv := by
  cases e with
  | bus x => exact busStep_inv hs h
  | rng w => obtain rfl := Host.Outcome.next.inj h; exact offerWord_inv w hs
  | engine => exact engineStep_inv hs h
  | rst lost => obtain rfl := Host.Outcome.next.inj h; exact resetStep_inv lost s

theorem step_inv (hs : s.Inv) (h : step s = .next t) : t.Inv := by
  obtain ⟨-, hengine⟩ | ⟨_, _, -, hevent⟩ := step_cases h
  · exact engineStep_inv hs hengine
  · exact eventStep_inv ((withSched_inv _ s).mpr hs) hevent

end Keeps

end Sys2Proof.Machine

/-! ### The statements -/

namespace Sys2Proof.Proofs

open Sys2Proof.Machine

/-- Settles O56: each operation keeps the invariant, the data ones because they write only slots the build has. -/
theorem stepKeepsTheInvariant : Obligations.StepKeepsTheInvariant := fun _ _ => step_inv

/-- Settles O55. -/
theorem invariantHoldsAtReset : Obligations.InvariantHoldsAtReset := resetOf_inv

/-- Settles O36: a completion writes d shares to PZ; every other step of a command leaves the data alone. -/
theorem primitiveCommandsWriteOnlyPz : Obligations.PrimitiveCommandsWriteOnlyPz := by
  intro i d s t hi h
  obtain ⟨hsh, hpx, hpy, hpz⟩ | ⟨hw, hdata⟩ := exec_data h
  · exact ⟨hsh, hpx, hpy, fun k _ => by rw [hpz]⟩
  · obtain ⟨zs, hlen, heq⟩ := WritesPz.resultOf_eq s.cfg hi hw s.got s
    rw [heq] at hdata
    obtain ⟨hsh, hpx, hpy, hpz⟩ := hdata
    exact ⟨hsh, hpx, hpy, fun k hk => by rw [hpz, setPz_pz_of_le (hlen.trans_le hk)]⟩

/-- Settles O37: a completion writes d rows of 2nb words; every other step of a command leaves the data alone. -/
theorem shareCommandsWriteOnlyTheirRows : Obligations.ShareCommandsWriteOnlyTheirRows := by
  intro i nb d s t hi h
  obtain ⟨hsh, hpx, hpy, hpz⟩ | ⟨hw, hdata⟩ := exec_data h
  · exact ⟨hpx, hpy, hpz, fun k w _ => by rw [hsh]⟩
  · obtain ⟨rows, hrows, heq⟩ := WritesRows.resultOf_eq s.cfg hi hw s.got s
    rw [heq] at hdata
    obtain ⟨hsh, hpx, hpy, hpz⟩ := hdata
    exact ⟨hpx, hpy, hpz, fun k w hkw => by rw [hsh, setShareRows_sh_of_le hrows hkw]⟩

/-- Settles O48. -/
theorem ctrlHoldsOnlyIe : Obligations.CtrlHoldsOnlyIe := by
  refine ⟨fun s v rest h => ?_, fun s rest h => ?_, fun _ => rfl⟩
  · rw [step_hostWr h, regAt_ctrl]
    rfl
  · rw [step_hostRd h, regAt_ctrl, ← ctrlWord_eq]
    rfl

/-- Settles O49: PARAM's fields are read off its value 0x1F00 + DMAX. -/
theorem idAndParamAreReadOnlyConstants : Obligations.IdAndParamAreReadOnlyConstants := by
  refine ⟨fun s rest h => ?_, fun s rest h => ?_, fun s off v rest hoff h => ?_⟩
  · rw [step_hostRd h, regAt_id]
    rfl
  · obtain ⟨hdmax, hlow, hschemes, hhigh⟩ := paramWord_fields s.cfg
    refine ⟨paramWord s.cfg, ?_, hdmax, hlow, hschemes, hhigh, fun h8 => by rw [paramWord_eq, h8]⟩
    rw [step_hostRd h, regAt_param]
    rfl
  · rw [step_hostWr h]
    obtain rfl | rfl := hoff
    · rw [regAt_id]
      rfl
    · rw [regAt_param]
      rfl

/-- Settles O53. -/
theorem rngWordIsConsumedWhenNeeded : Obligations.RngWordIsConsumedWhenNeeded := by
  intro s w rest h
  have hstep : step s = .next (offerWord w { s with sched := rest }) := step_cons h
  refine ⟨fun i hb hd => ?_, fun hb => ?_⟩
  · rw [hstep, offerWord_busy (s := { s with sched := rest }) w hb hd]
  · rw [hstep, offerWord_idle (s := { s with sched := rest }) w hb]

/-- Settles O50: the word's bits are the list it is packed from, and 0 past the list's end. -/
theorem statusFieldsHaveTheirPlaces : Obligations.StatusFieldsHaveTheirPlaces := by
  intro f k hk
  rw [statusWord, getLsbD_packBits _ hk]
  obtain hlow | hhigh := Nat.lt_or_ge k 11
  · interval_cases k <;> rfl
  · rw [List.getD_eq_default _ _ hhigh]
    repeat rw [if_neg (by omega)]

/-- Settles O51. -/
theorem resetValuesAreTheSpecs : Obligations.ResetValuesAreTheSpecs := by
  intro c
  refine ⟨fun k => ?_, rfl, statusWord_reset, ctrlWord_eq false, rfl, rfl, rfl, rfl, rfl, rfl,
    congrArg some (paramWord_eq c), rfl⟩
  simp [State.resetOf]

end Sys2Proof.Proofs
end

section
/-! SUPPORT. Proofs of the statements of 20_memory.md: what a read returns (R41, R48), what a data write does (R49), and
what a bad access does (R44-R47). -/

namespace Sys2Proof.Machine

/-! ### Which accesses are bus errors (20_memory.md R44-R47, 60_exceptions.md R165) -/

/-- A register that no write reaches (20_memory.md R47). -/
def Reg.ReadOnly : Reg → Prop
  | .id | .param | .rngcnt | .pz _ => True
  | _ => False

theorem busWrite_readOnly {q : Reg} (hq : q.ReadOnly) (v : Word) (s : State) :
    busWrite (some q) v s = .next (writeRefused s) := by
  cases q with
  | id | param | rngcnt | pz => rfl
  | cmd | status | ctrl | px | py | sh => exact hq.elim

theorem map_slot_readOnly {dmax n : Nat} {f : Fin 16 → Reg} {q : Reg} {p : Prop} (h : (slot dmax n).map f = some q)
    (hf : ∀ k, (f k).ReadOnly ↔ p) : q.ReadOnly ↔ p := by
  obtain ⟨k, -, rfl⟩ := Option.map_eq_some_iff.mp h
  exact hf k

/-- The read-only registers are those at the read-only offsets of R47. -/
theorem regAt_readOnly {dmax : Nat} {off : BitVec 12} {q : Reg} (h : regAt dmax off = some q) :
    q.ReadOnly ↔ specReadOnly off.toNat := by
  simp only [specReadOnly]
  generalize hn : off.toNat = n
  simp only [regAt, hn] at h
  split at h
  · cases h
  split at h
  · split at h <;> cases h
    case h_1 | h_2 | h_3 => exact iff_of_false id (by omega)
    case h_4 | h_5 => exact iff_of_true trivial (by omega)
    case h_6 => exact iff_of_true trivial (by grind)
  split at h
  · cases h
  split at h
  · exact map_slot_readOnly h fun _ => iff_of_false id (by omega)
  split at h
  · exact map_slot_readOnly h fun _ => iff_of_false id (by omega)
  split at h
  · exact map_slot_readOnly h fun _ => iff_of_true trivial (by omega)
  · exact map_slot_readOnly h fun _ => iff_of_false id (by omega)

/-- A transaction reaches no register exactly on the grounds (a) to (c) of R165. -/
theorem target_none (s : State) (x : Txn) :
    target s x = none ↔ x.off.toNat % 4 ≠ 0 ∨ x.width = .narrow ∨ specReserved s.cfg.dmax x.off.toNat := by
  obtain ⟨-, h16⟩ := s.cfg.legal
  cases hw : x.width with
  | narrow => simp [target, hw]
  | word => simp [target, hw, regAt_none h16]

theorem target_readOnly {s : State} {x : Txn} {q : Reg} (h : target s x = some q) :
    q.ReadOnly ↔ specReadOnly x.off.toNat := by
  unfold target at h
  split at h
  · exact regAt_readOnly h
  · cases h

/-- R165's grounds on the map: no register there, or a write to a read-only one. -/
theorem specBusError_iff (s : State) (x : Txn) :
    specBusError s.cfg.dmax x ↔
      target s x = none ∨ ∃ v q, x.access = .write v ∧ target s x = some q ∧ q.ReadOnly := by
  have hgrounds : specBusError s.cfg.dmax x ↔
      target s x = none ∨ (∃ v, x.access = .write v) ∧ specReadOnly x.off.toNat := by
    simp only [target_none, specBusError, or_assoc]
  rw [hgrounds]
  cases hq : target s x with
  | none => simp
  | some q => simp [← target_readOnly hq]

/-- An error answer: BUSERR is set, and an error read takes a free value. -/
theorem busStep_of_busError {s : State} {x : Txn} (h : specBusError s.cfg.dmax x) :
    ∃ r f, BusResp.isError r = true ∧
      busStep x s = .next { s with resp := r, free := f, status := { s.status with buserr := true } } := by
  obtain hnone | ⟨v, q, hwrite, hq, hro⟩ := (specBusError_iff s x).mp h
  · cases hx : x.access with
    | read => exact ⟨_, _, rfl, by simp only [busStep, hx, hnone]; rfl⟩
    | write v => exact ⟨_, _, rfl, by simp only [busStep, hx, hnone]; rfl⟩
  · exact ⟨_, _, rfl, by simp only [busStep, hwrite, hq, busWrite_readOnly hro]; rfl⟩

/-! ### Reads (20_memory.md R48) -/

/-- A read of a register: its value or a free one. -/
theorem busStep_read_some {s : State} {x : Txn} {q : Reg} (hread : x.access = .read) (hq : target s x = some q) :
    ∃ v f, busStep x s = .next { s with resp := .read v, free := f } := by
  simp only [busStep, hread]
  obtain ⟨hnone, -⟩ | ⟨_, v, -, -, h⟩ | ⟨_, -, -, h⟩ := busRead_cases (target s x) s
  · simp [hq] at hnone
  · exact ⟨v, s.free, congrArg _ h⟩
  · exact ⟨_, _, congrArg _ h⟩

/-- The value a register holds, as a read returns it (20_memory.md R41). -/
def Reg.value (s : State) : Reg → Word
  | .cmd => s.cmd
  | .status => statusWord s.status
  | .ctrl => ctrlWord s.ie
  | .id => idWord
  | .param => paramWord s.cfg
  | .rngcnt => s.rngcnt
  | .px k => s.px[k]
  | .py k => s.py[k]
  | .pz k => s.pz[k]
  | .sh k w => s.sh[k][w]

theorem readReg_idle {s : State} (hb : s.status.busy = false) (q : Reg) : readReg q s = some (q.value s) := by
  cases q <;> simp [readReg, hb, Reg.value]

/-- A host read of a register that returns `v` changes nothing but the bus's answer. -/
theorem step_hostRd_value {s : State} {off : Nat} {rest : List Event} {q : Reg} {v : Word}
    (h : s.sched = hostRd off :: rest) (hq : regAt s.cfg.dmax (BitVec.ofNat 12 off) = some q)
    (hv : readReg q { s with sched := rest } = some v) :
    step s = .next { s with sched := rest, resp := .read v } := by
  rw [step_hostRd h, hq]
  simp only [busRead, hv]
  rfl

/-! ### Data writes (20_memory.md R48, R49) -/

section DataWrites

variable {s : State} {off : Nat} {v : Word} {rest : List Event} {q : Reg} {store : State → State}
  (h : s.sched = hostWr off v :: rest) (hq : regAt s.cfg.dmax (BitVec.ofNat 12 off) = some q)
  (hstore : ∀ t, busWrite (some q) v t = .next (writeData store t))

include h hq hstore

/-- A host write to a data register whose writes are `store`'s is one `writeData`. -/
theorem step_hostWr_data : step s = .next (writeData store { s with sched := rest }) := by
  rw [step_hostWr h, hq, hstore]

theorem step_hostWr_data_idle (hb : s.status.busy = false) :
    step s = .next (respond .written (store { s with sched := rest })) :=
  (step_hostWr_data h hq hstore).trans (congrArg _ (writeData_idle hb))

theorem step_hostWr_data_busy (hb : s.status.busy = true) :
    step s = .next (respond .written (setWbusy { s with sched := rest })) :=
  (step_hostWr_data h hq hstore).trans (congrArg _ (writeData_busy hb))

end DataWrites

end Sys2Proof.Machine

/-! ### The statements -/

namespace Sys2Proof.Proofs

open Sys2Proof.Machine

/-- Settles O39: the bad accesses are those that reach no register or write a read-only one. -/
theorem badAccessSetsOnlyBuserr : Obligations.BadAccessSetsOnlyBuserr := by
  intro s x rest h hbad
  rw [step_cons h]
  exact busStep_of_busError (s := { s with sched := rest }) hbad

/-- Settles O41: the offset names the register, which a read returns always or while idle. -/
theorem readsReturnTheRegister : Obligations.ReadsReturnTheRegister := by
  intro s off rest h
  refine ⟨fun v hv => ?_, fun v hb hv => ?_⟩
  · obtain ⟨rfl, rfl⟩ | ⟨rfl, rfl⟩ | ⟨rfl, rfl⟩ | ⟨rfl, rfl⟩ | ⟨rfl, rfl⟩ := hv
    · exact step_hostRd_value h (regAt_cmd _) rfl
    · exact step_hostRd_value h (regAt_status _) rfl
    · exact step_hostRd_value h (regAt_ctrl _) (congrArg some (by cases s.ie <;> rfl))
    · exact step_hostRd_value h (regAt_id _) rfl
    · exact step_hostRd_value h (regAt_param _) (congrArg some (paramWord_eq s.cfg))
  · have hread (q : Reg) := readReg_idle (s := { s with sched := rest }) hb q
    obtain ⟨rfl, rfl⟩ | ⟨k, hk, ⟨rfl, rfl⟩ | ⟨rfl, rfl⟩ | ⟨rfl, rfl⟩ | ⟨w, rfl, rfl⟩⟩ := hv
    · exact step_hostRd_value h (regAt_rngcnt _) (hread _)
    · exact step_hostRd_value h (regAt_px k hk) (hread _)
    · exact step_hostRd_value h (regAt_py k hk) (hread _)
    · exact step_hostRd_value h (regAt_pz k hk) (hread _)
    · exact step_hostRd_value h (regAt_sh k w hk) (hread _)

/-- Settles O42: a read that is no bus error reaches a register. -/
theorem readsHaveNoSideEffect : Obligations.ReadsHaveNoSideEffect := by
  intro s x rest h hread hgood
  rw [step_cons h]
  cases hq : target { s with sched := rest } x with
  | none => exact absurd ((specBusError_iff { s with sched := rest } x).mpr (.inl hq)) hgood
  | some q => exact busStep_read_some hread hq

/-- Settles O43: the three data regions, each with its own store. -/
theorem idleDataWritesStore : Obligations.IdleDataWritesStore := by
  intro s k w v rest hb hk
  exact ⟨fun h => step_hostWr_data_idle h (regAt_px k hk) (fun _ => rfl) hb,
    fun h => step_hostWr_data_idle h (regAt_py k hk) (fun _ => rfl) hb,
    fun h => step_hostWr_data_idle h (regAt_sh k w hk) (fun _ => rfl) hb⟩

/-- Settles O44: what the write would have stored does not matter, so the three data regions are one case. -/
theorem busyDataWritesAreDropped : Obligations.BusyDataWritesAreDropped := by
  intro s off k w v rest hb hk hw hoff h
  obtain ⟨-, h16⟩ := s.cfg.legal
  have hk16 : k < 16 := by omega
  obtain rfl | rfl | rfl := hoff
  · exact step_hostWr_data_busy h (regAt_px ⟨k, hk16⟩ hk) (fun _ => rfl) hb
  · exact step_hostWr_data_busy h (regAt_py ⟨k, hk16⟩ hk) (fun _ => rfl) hb
  · exact step_hostWr_data_busy h (regAt_sh ⟨k, hk16⟩ ⟨w, hw⟩ hk) (fun _ => rfl) hb

end Sys2Proof.Proofs
end

section
/-! SUPPORT. Proofs of the statements of 30_encoding.md: a word without reserved bits is its fields (R60), each command
is one choice of the fields (R65), and the decoder reads exactly that choice back (R66). -/

namespace Sys2Proof

/-! ### The format CMD32: a word is its fields and its reserved bits (30_encoding.md R60) -/

/-- The fields of a CMD32 word. -/
@[ext] structure Fields where
  op     : BitVec 4
  nb     : BitVec 2
  full   : Bool
  scheme : BitVec 3
  order  : BitVec 5

/-- The word with these fields, the reserved bits 0. -/
def Fields.word (f : Fields) : Word := packFields f.op.toNat f.nb.toNat f.full.toNat f.scheme.toNat f.order.toNat

/-- The fields of a word, as the decoder pulls them out. -/
def fieldsOf (w : Word) : Fields := ⟨opField w, nbField w, fullField w, schemeField w, orderField w⟩

/-- Z7, Z11 and Z31 are 0. -/
def ReservedZero (w : Word) : Prop :=
  w.extractLsb' 7 1 = 0#1 ∧ w.extractLsb' 11 1 = 0#1 ∧ w.extractLsb' 17 15 = 0#15

theorem opField_toNat (w : Word) : (opField w).toNat = w.toNat % 16 := by
  simp [opField]

theorem nbField_toNat (w : Word) : (nbField w).toNat = w.toNat / 16 % 4 := by
  simp [nbField, Nat.shiftRight_eq_div_pow]

theorem fullField_toNat (w : Word) : (fullField w).toNat = w.toNat / 64 % 2 := by
  rw [fullField, ← BitVec.testBit_toNat, Nat.toNat_testBit]

theorem schemeField_toNat (w : Word) : (schemeField w).toNat = w.toNat / 256 % 8 := by
  simp [schemeField, Nat.shiftRight_eq_div_pow]

theorem orderField_toNat (w : Word) : (orderField w).toNat = w.toNat / 4096 % 32 := by
  simp [orderField, Nat.shiftRight_eq_div_pow]

theorem reservedZero_iff (w : Word) :
    ReservedZero w ↔ w.toNat / 128 % 2 = 0 ∧ w.toNat / 2048 % 2 = 0 ∧ w.toNat / 131072 % 32768 = 0 := by
  simp [ReservedZero, ← BitVec.toNat_inj, Nat.shiftRight_eq_div_pow]

theorem Fields.word_toNat (f : Fields) :
    f.word.toNat = f.op.toNat + f.nb.toNat * 16 + f.full.toNat * 64 + f.scheme.toNat * 256 + f.order.toNat * 4096 := by
  have hfull := f.full.toNat_lt
  rw [Fields.word, packFields, BitVec.toNat_ofNat]
  omega

theorem Fields.word_reservedZero (f : Fields) : ReservedZero f.word := by
  have hfull := f.full.toNat_lt
  rw [reservedZero_iff, f.word_toNat]
  omega

theorem bool_eq_of_toNat_eq {a b : Bool} (h : a.toNat = b.toNat) : a = b := by
  revert a b
  decide

theorem fieldsOf_word (f : Fields) : fieldsOf f.word = f := by
  have hfull := f.full.toNat_lt
  have hword := f.word_toNat
  refine Fields.ext (BitVec.eq_of_toNat_eq ?_) (BitVec.eq_of_toNat_eq ?_) (bool_eq_of_toNat_eq ?_)
    (BitVec.eq_of_toNat_eq ?_) (BitVec.eq_of_toNat_eq ?_) <;>
    simp only [fieldsOf, opField_toNat, nbField_toNat, fullField_toNat, schemeField_toNat, orderField_toNat] <;>
    omega

theorem word_fieldsOf {w : Word} (h : ReservedZero w) : (fieldsOf w).word = w := by
  obtain ⟨h7, h11, h31⟩ := (reservedZero_iff w).mp h
  apply BitVec.eq_of_toNat_eq
  simp only [Fields.word_toNat, fieldsOf, opField_toNat, nbField_toNat, fullField_toNat, schemeField_toNat,
    orderField_toNat]
  omega

/-! ### The words without a bit outside the fields their OP uses (30_encoding.md R65) -/

/-- A field that OP does not use, as its bits in ALLOWED(op) are 0, is 0. -/
def Fields.UnusedZero (f : Fields) : Prop :=
  (nbField (allowed f.op) = 0#2 → f.nb = 0#2) ∧ (fullField (allowed f.op) = false → f.full = false) ∧
  (schemeField (allowed f.op) = 0#3 → f.scheme = 0#3) ∧ (orderField (allowed f.op) = 0#5 → f.order = 0#5)

/-- A word is 0 if its fields and its reserved bits are. -/
theorem eq_zero_iff_fields (w : Word) :
    w = 0#32 ↔ ReservedZero w ∧ fieldsOf w = ⟨0#4, 0#2, false, 0#3, 0#5⟩ := by
  constructor
  · rintro rfl
    exact ⟨⟨rfl, rfl, rfl⟩, rfl⟩
  · rintro ⟨hreserved, hfields⟩
    rw [← word_fieldsOf hreserved, hfields]
    rfl

theorem extractLsb'_and_not (v m : Word) {start len : Nat} (h : start + len ≤ 32) :
    (v &&& ~~~m).extractLsb' start len = v.extractLsb' start len &&& ~~~m.extractLsb' start len := by
  ext k hk
  simp [show start + k < 32 by omega]

theorem fieldsOf_and_not (v m : Word) :
    fieldsOf (v &&& ~~~m) =
      ⟨opField v &&& ~~~opField m, nbField v &&& ~~~nbField m, fullField v && !fullField m,
        schemeField v &&& ~~~schemeField m, orderField v &&& ~~~orderField m⟩ := by
  refine Fields.ext ?_ ?_ ?_ ?_ ?_
  · exact extractLsb'_and_not v m (by decide)
  · exact extractLsb'_and_not v m (by decide)
  · simp [fieldsOf, fullField]
  · exact extractLsb'_and_not v m (by decide)
  · exact extractLsb'_and_not v m (by decide)

theorem reservedZero_and_not (v : Word) {m : Word} (hm : ReservedZero m) :
    ReservedZero (v &&& ~~~m) ↔ ReservedZero v := by
  obtain ⟨h7, h11, h31⟩ := hm
  have hkeep {start len : Nat} (hlen : start + len ≤ 32) (h : m.extractLsb' start len = 0#len) :
      (v &&& ~~~m).extractLsb' start len = v.extractLsb' start len := by
    rw [extractLsb'_and_not v m hlen, h, BitVec.not_zero, BitVec.and_allOnes]
  rw [ReservedZero, hkeep (by decide) h7, hkeep (by decide) h11, hkeep (by decide) h31, ReservedZero]

/-- ALLOWED(op) holds all of OP and no reserved bit. -/
theorem allowed_op_reserved (op : BitVec 4) : ~~~opField (allowed op) = 0#4 ∧ ReservedZero (allowed op) := by
  unfold ReservedZero
  revert op
  decide

/-- ALLOWED(op) holds all or nothing of each of the other fields. -/
theorem allowed_fields (op : BitVec 4) :
    (nbField (allowed op) = 0#2 ∨ ~~~nbField (allowed op) = 0#2) ∧
      (schemeField (allowed op) = 0#3 ∨ ~~~schemeField (allowed op) = 0#3) ∧
      (orderField (allowed op) = 0#5 ∨ ~~~orderField (allowed op) = 0#5) := by
  revert op
  decide

theorem and_not_eq_zero_iff {n : Nat} (x : BitVec n) {m : BitVec n} (h : m = 0#n ∨ ~~~m = 0#n) :
    x &&& ~~~m = 0#n ↔ (m = 0#n → x = 0#n) := by
  have hzero (hm : m = 0#n) : x &&& ~~~m = x := by rw [hm, BitVec.not_zero, BitVec.and_allOnes]
  constructor
  · intro hx hm
    rwa [hzero hm] at hx
  · intro hx
    obtain hm | hm := h
    · rw [hzero hm, hx hm]
    · rw [hm, BitVec.and_zero]

theorem and_not_eq_false_iff (b m : Bool) : (b && !m) = false ↔ (m = false → b = false) := by
  revert b m
  decide

/-- The decoder's test for bits outside ALLOWED(op), field by field. -/
theorem and_not_allowed_eq_zero_iff (w : Word) :
    w &&& ~~~allowed (opField w) = 0#32 ↔ ReservedZero w ∧ (fieldsOf w).UnusedZero := by
  obtain ⟨hop, hreserved⟩ := allowed_op_reserved (opField w)
  obtain ⟨hnb, hscheme, horder⟩ := allowed_fields (opField w)
  rw [eq_zero_iff_fields, reservedZero_and_not w hreserved, fieldsOf_and_not, hop, BitVec.and_zero, Fields.mk.injEq,
    and_not_eq_zero_iff _ hnb, and_not_eq_false_iff, and_not_eq_zero_iff _ hscheme, and_not_eq_zero_iff _ horder]
  exact and_congr_right' (and_iff_right rfl)

theorem decodeRow_of_reserved_op {w : Word} (hop : 10 ≤ (opField w).toNat) : decodeRow w = .error .illegalCmd := by
  unfold decodeRow
  split
  case h_11 => rfl
  all_goals omega

/-- What the decoder accepts: a word with no stray bit whose row is a command. -/
theorem decode_eq_ok_iff {w : Word} {i : Instr} :
    decode w = .ok i ↔ (ReservedZero w ∧ (fieldsOf w).UnusedZero) ∧ decodeRow w = .ok i := by
  rw [← and_not_allowed_eq_zero_iff, decode]
  split
  next hop => simp [decodeRow_of_reserved_op hop]
  next =>
    split
    next hstray => simp [hstray]
    next hclean => simp [not_not.mp hclean]

/-! ### The commands as fields (30_encoding.md R65) -/

/-- The fields of a command's word. -/
def Instr.fields : Instr → Fields
  | .nop                   => ⟨0, 0, false, 0, 0⟩
  | .permute nb f          => ⟨1, nb, f, 0, 0⟩
  | .mpermuteBool nb f d   => ⟨2, nb, f, 0, d⟩
  | .mpermuteConv nb f d   => ⟨2, nb, f, 1, d⟩
  | .mpermuteGoubin nb f d => ⟨2, nb, f, 2, d⟩
  | .mpermuteKs nb f d     => ⟨2, nb, f, 3, d⟩
  | .mpermuteHo nb f d     => ⟨2, nb, f, 4, d⟩
  | .mask nb d             => ⟨3, nb, false, 0, d⟩
  | .unmask nb d           => ⟨4, nb, false, 0, d⟩
  | .secand d              => ⟨5, 0, false, 0, d⟩
  | .maddBool d            => ⟨6, 0, false, 0, d⟩
  | .maddConv d            => ⟨6, 0, false, 1, d⟩
  | .maddGoubin d          => ⟨6, 0, false, 2, d⟩
  | .maddKs d              => ⟨6, 0, false, 3, d⟩
  | .maddHo d              => ⟨6, 0, false, 4, d⟩
  | .b2a                   => ⟨7, 0, false, 0, 0⟩
  | .a2b                   => ⟨8, 0, false, 0, 0⟩
  | .zeroize               => ⟨9, 0, false, 0, 0⟩

theorem encode_eq_word (i : Instr) : encode i = i.fields.word := by cases i <;> rfl

theorem Instr.fields_unusedZero (i : Instr) : i.fields.UnusedZero := by
  cases i <;> simp [Instr.fields, Fields.UnusedZero, allowed, nbField, fullField, schemeField, orderField]

theorem decodeRow_of_fields {w : Word} {i : Instr} (h : fieldsOf w = i.fields) : decodeRow w = .ok i := by
  have hop : opField w = i.fields.op := congrArg Fields.op h
  have hnb : nbField w = i.fields.nb := congrArg Fields.nb h
  have hfull : fullField w = i.fields.full := congrArg Fields.full h
  have hscheme : schemeField w = i.fields.scheme := congrArg Fields.scheme h
  have horder : orderField w = i.fields.order := congrArg Fields.order h
  rw [decodeRow, hop, hnb, hfull, hscheme, horder]
  cases i <;> rfl

theorem eq_ofNat_of_toNat_eq {n k : Nat} {x : BitVec n} (h : x.toNat = k) : x = BitVec.ofNat n k := by
  simp [← h]

theorem fields_of_decodeMpermute {scheme : BitVec 3} {nb : BitVec 2} {full : Bool} {order : BitVec 5} {i : Instr}
    (h : decodeMpermute scheme nb full order = .ok i) : i.fields = ⟨2, nb, full, scheme, order⟩ := by
  unfold decodeMpermute at h
  split at h <;> cases h
  all_goals rw [eq_ofNat_of_toNat_eq ‹scheme.toNat = _›]; rfl

theorem fields_of_decodeMadd {scheme : BitVec 3} {order : BitVec 5} {i : Instr}
    (h : decodeMadd scheme order = .ok i) : i.fields = ⟨6, 0, false, scheme, order⟩ := by
  unfold decodeMadd at h
  split at h <;> cases h
  all_goals rw [eq_ofNat_of_toNat_eq ‹scheme.toNat = _›]; rfl

/-- The match gives OP, the command takes the fields OP uses, and the others are 0 on both sides. -/
theorem fields_of_decodeRow {w : Word} {i : Instr} (h : decodeRow w = .ok i) (hunused : (fieldsOf w).UnusedZero) :
    i.fields = fieldsOf w := by
  unfold Fields.UnusedZero fieldsOf at hunused
  unfold decodeRow at h
  rw [fieldsOf]
  split at h
  case h_11 => cases h
  case h_3 hop => rw [fields_of_decodeMpermute h, eq_ofNat_of_toNat_eq hop]; rfl
  case h_7 hop =>
    rw [fields_of_decodeMadd h]
    simp_all +decide [eq_ofNat_of_toNat_eq hop]
  all_goals
    next hop =>
      obtain rfl := Except.ok.inj h
      simp_all +decide [Instr.fields, eq_ofNat_of_toNat_eq hop]

/-! ### decode and encode are inverse to each other (30_encoding.md R66) -/

theorem decode_encode (i : Instr) : decode (encode i) = .ok i := by
  rw [encode_eq_word]
  have hfields := fieldsOf_word i.fields
  have hunused : (fieldsOf i.fields.word).UnusedZero := hfields.symm ▸ i.fields_unusedZero
  exact decode_eq_ok_iff.mpr ⟨⟨i.fields.word_reservedZero, hunused⟩, decodeRow_of_fields hfields⟩

theorem encode_of_decode {w : Word} {i : Instr} (h : decode w = .ok i) : encode i = w := by
  obtain ⟨⟨hreserved, hunused⟩, hrow⟩ := decode_eq_ok_iff.mp h
  rw [encode_eq_word, fields_of_decodeRow hrow hunused, word_fieldsOf hreserved]

end Sys2Proof

/-! ### The statements -/

namespace Sys2Proof.Proofs

/-- Settles O1: the word of a command has the command's fields and no other bit, and its row reads them back. -/
theorem encodedCommandDecodes : Obligations.EncodedCommandDecodes := decode_encode

/-- Settles O2: an accepted word is its fields, and they are the fields of the command they select. -/
theorem decodedWordIsItsEncoding : Obligations.DecodedWordIsItsEncoding := fun _ _ => encode_of_decode

/-- Settles O3: each of the words is the encoding of its command. -/
theorem specCommandWordsDecode : Obligations.SpecCommandWordsDecode :=
  ⟨decode_encode .nop, decode_encode (.permute 1 true), decode_encode (.mpermuteKs 2 true 2),
    decode_encode (.mask 1 3), decode_encode (.unmask 0 2), decode_encode (.secand 8), decode_encode (.maddBool 3),
    decode_encode (.maddGoubin 2), decode_encode (.maddHo 4), decode_encode .b2a, decode_encode .a2b,
    decode_encode .zeroize⟩

end Sys2Proof.Proofs
end

section
/-! SUPPORT. Proofs of the statements of 40_permutation.md: rotation (R81), PERMUTE, NOP and ZEROIZE (R91-R93), what
MPERMUTE reads (R95), and the host's side under every command. -/

namespace Sys2Proof.Machine

/-! ### Rotation (40_permutation.md R81) -/

/-- The bits that leave on the right come back on the left. -/
theorem getLsbD_rotr (a : Word) {n i : Nat} (hn : n < 32) (hi : i < 32) :
    (rotr a n).getLsbD i = a.getLsbD ((i + n) % 32) := by
  obtain rfl | hpos := Nat.eq_zero_or_pos n
  · rw [rotr_zero, Nat.add_zero, Nat.mod_eq_of_lt hi]
  · rw [rotr, if_neg hpos.ne', BitVec.getLsbD_or, BitVec.getLsbD_ushiftRight, BitVec.getLsbD_shiftLeft]
    obtain hlow | hwrap := Nat.lt_or_ge (i + n) 32
    · have hshift : i < 32 - n := by omega
      simp [hshift, Nat.mod_eq_of_lt hlow, Nat.add_comm n i]
    · have hmod : (i + n) % 32 = i - (32 - n) := by omega
      have hshift : ¬ i < 32 - n := by omega
      have hout : a.getLsbD (n + i) = false := BitVec.getLsbD_of_ge a _ (by omega)
      simp [hmod, hshift, hout, hi]

/-! ### What every command keeps, and what a completion leaves (60_exceptions.md R163, 70_reset_and_hazards.md R183) -/

section Commands

variable {i : Instr} {s t : State}

/-- A result writes data registers only, so after it a completion is one from the state before. -/
theorem complete_resultOf_completed (i : Instr) (n : Nat) (ws : List Word) (s : State) :
    Completed n s (complete n (resultOf i ws s)) := by
  rw [resultOf_control]
  simp [Completed, SameHostSide]

theorem exec_ready (h : Ready i s) :
    ∃ t, exec i s = .next t ∧ Completed (draws i) s t ∧ SameData (resultOf i s.got s) t :=
  ⟨_, exec_completes h, complete_resultOf_completed i _ _ s, rfl, rfl, rfl, rfl⟩

theorem exec_hostSide (h : exec i s = .next t) : SameHostSide s t := by
  obtain ⟨-, c, -, rfl⟩ | ⟨-, -, rfl⟩ | ⟨-, -, -, rfl⟩ | ⟨-, rfl⟩ := exec_cases h
  · simp [SameHostSide]
  · simp [SameHostSide]
  · simp [SameHostSide]
  · obtain ⟨-, -, -, -, -, -, hhost⟩ := complete_resultOf_completed i (draws i) s.got s
    exact hhost

/-- NOP's result is the state itself, so its completion too leaves the data alone (40_permutation.md R92). -/
theorem exec_nop_data (h : exec .nop s = .next t) : SameData s t := (exec_data h).elim id And.right

end Commands

/-! ### The share rows a command reads and writes (10_state.md R21) -/

/-- Writing d rows of n words puts them in the rows below d and the words below n. -/
theorem setShareRows_sh_of_lt {d n : Nat} {rows : List (List Word)} (h : Shape d n rows) {k w : Fin 16}
    (hk : k.val < d) (hw : w.val < n) (s : State) :
    (setShareRows rows s).sh[k][w] = (rows.getD k.val []).getD w.val 0#32 := by
  obtain ⟨hlen, hrows⟩ := h
  have hk' : k.val < rows.length := by omega
  have hw' : w.val < rows[k.val].length := by rw [hrows _ (List.getElem_mem hk')]; exact hw
  have hcell := setShareRows_sh_getElem rows s k.val w.val k.isLt w.isLt
  rw [dif_pos hk', dif_pos hw'] at hcell
  rw [List.getD_eq_getElem _ _ hk', List.getD_eq_getElem _ _ hw']
  exact hcell

theorem shareRows_one (n : Nat) (s : State) : shareRows 1 n s = [s.sh[0].toList.take n] := by
  have hrow : s.sh.toList.take 1 = [s.sh[0]] :=
    List.take_one_drop_eq_of_lt_length (l := s.sh.toList) (n := 0) (by simp)
  rw [shareRows, hrow, List.map_singleton]

/-- The first n words of rows 0..d-1 are all that is read of the share RAM. -/
theorem shareRows_congr {d n : Nat} {s1 s2 : State}
    (h : ∀ k w : Fin 16, k.val < d → w.val < n → s1.sh[k][w] = s2.sh[k][w]) :
    shareRows d n s1 = shareRows d n s2 := by
  refine List.ext_getElem (by simp) fun k hk _ => List.ext_getElem (by simp [shareRows]) fun w hw _ => ?_
  obtain ⟨hkd, hk16⟩ : k < d ∧ k < 16 := by simpa using hk
  obtain ⟨hwn, hw16⟩ : w < n ∧ w < 16 := by simpa [shareRows] using hw
  simpa [shareRows] using h ⟨k, hk16⟩ ⟨w, hw16⟩ hkd hwn

/-- PERMUTE's result in the words it writes (40_permutation.md R91). -/
theorem permuteResult_sh_zero (nb : BitVec 2) (full : Bool) (s : State) {w : Fin 16} (hw : w.val < rowLen nb) :
    (permuteResult nb full s).sh[0][w] =
      (permuteWords (steps nb full) (s.sh[0].toList.take (rowLen nb))).getD w.val 0#32 := by
  have hshape : Shape 1 (rowLen nb) ((shareRows 1 (rowLen nb) s).map (permuteWords (steps nb full))) :=
    (shareRows_shape 1 _ s (by decide) (rowLen_le nb)).map _ fun r hr => permuteWords_length _ nb r hr
  have hcell := setShareRows_sh_of_lt (k := 0) hshape Nat.one_pos hw s
  simpa [permuteResult, shareRows_one] using hcell

/-- MPERMUTE's rows are a function of the same rows before and the RNG words (40_permutation.md R95,
42_masked_permutation.md R147). -/
theorem mpermuteResult_sh_congr (c : Config) {sch : Scheme} {nb : BitVec 2} (full : Bool) {d : BitVec 5}
    (ws : List Word) {s1 s2 : State} (hd : Instr.wfScheme c.dmax d sch = true)
    (hrows : shareRows d.toNat (rowLen nb) s1 = shareRows d.toNat (rowLen nb) s2) {k w : Fin 16}
    (hk : k.val < d.toNat) (hw : w.val < rowLen nb) :
    (mpermuteResult sch nb full d ws s1).sh[k][w] = (mpermuteResult sch nb full d ws s2).sh[k][w] := by
  unfold mpermuteResult
  rw [setShareRows_sh_of_lt (mpermuteRows_shape c nb _ s1 ws hd) hk hw,
    setShareRows_sh_of_lt (mpermuteRows_shape c nb _ s2 ws hd) hk hw, hrows]

end Sys2Proof.Machine

/-! ### The statements -/

namespace Sys2Proof.Proofs

open Sys2Proof.Machine

/-- Settles O13. -/
theorem nopLeavesAllData : Obligations.NopLeavesAllData := fun _ h => exec_ready h

/-- Settles O14. -/
theorem zeroizeClearsAllData : Obligations.ZeroizeClearsAllData := by
  intro s h
  obtain ⟨t, hexec, hdone, hsh, hpx, hpy, hpz⟩ := exec_ready h
  refine ⟨t, hexec, hdone, fun k => ?_⟩
  rw [hsh, hpx, hpy, hpz]
  simp [resultOf, zeroizeResult]

/-- Settles O15: the words written are Permute's, and every other word is in PERMUTE's frame (O37). -/
theorem permuteRunsOnRowZero : Obligations.PermuteRunsOnRowZero := by
  intro nb full s h
  obtain ⟨t, hexec, hdone, hsh, -⟩ := exec_ready h
  obtain ⟨hpx, hpy, hpz, hframe⟩ := shareCommandsWriteOnlyTheirRows _ nb 1 s t (.inl ⟨rfl, full, rfl⟩) hexec
  refine ⟨t, hexec, hdone, fun w => ?_, fun k w hk => hframe k w (.inl hk), hpx, hpy, hpz⟩
  split
  next hw => rw [hsh]; exact permuteResult_sh_zero nb full s hw
  next hw => exact hframe 0 w (.inr (Nat.le_of_not_lt hw))

/-- Settles O16. -/
theorem rotationMovesBits : Obligations.RotationMovesBits := fun a _ _ => getLsbD_rotr a

/-- Settles O35: both runs write the rows that MPERMUTE computes from equal rows and equal RNG words. -/
theorem mpermuteReadsOnlyItsRows : Obligations.MpermuteReadsOnlyItsRows := by
  intro sch nb full d s1 s2 h1 h2 hgot hrows
  obtain ⟨t1, hexec1, -, hsh1, -⟩ := exec_ready h1
  obtain ⟨t2, hexec2, -, hsh2, -⟩ := exec_ready h2
  obtain ⟨-, hwf, -⟩ := h1
  rw [wellFormed_mpermuteOf, Bool.and_eq_true] at hwf
  obtain ⟨-, hd⟩ := hwf
  refine ⟨t1, t2, hexec1, hexec2, fun k w hk hw => ?_⟩
  rw [hsh1, hsh2, resultOf_mpermuteOf, hgot]
  exact mpermuteResult_sh_congr s1.cfg full s2.got hd (shareRows_congr hrows) hk hw

/-- Settles O38: each of the four things a command's step can do writes other fields. -/
theorem commandsKeepTheHostSide : Obligations.CommandsKeepTheHostSide := by
  intro i s t h
  refine ⟨exec_hostSide h, ?_⟩
  rintro rfl
  exact exec_nop_data h

end Sys2Proof.Proofs
end

section
/-! SUPPORT. Proofs of the statements of 41_secure_adders.md: what the secure AND, the five masked adders and the two
conversions compute and consume (R100-R114), and the commands that run them (R115-R122). -/

namespace Sys2Proof.Machine

/-! ### The value of shares under a linear map (00_scope.md R7, R9) -/

/-- A linear map may be applied share by share. -/
theorem xorAll_map_linear {v w : Nat} {f : BitVec v → BitVec w} (hzero : f 0#v = 0#w)
    (hxor : ∀ a b, f (a ^^^ b) = f a ^^^ f b) (vs : List (BitVec v)) : xorAll (vs.map f) = f (xorAll vs) := by
  induction vs with
  | nil => exact hzero.symm
  | cons a vs ih => rw [List.map_cons, xorAll_cons, ih, xorAll_cons, hxor]

/-- A map linear in both its arguments together may be applied share by share. -/
theorem xorAll_zipWith_linear {u v w : Nat} {f : BitVec u → BitVec v → BitVec w} (hzero : f 0#u 0#v = 0#w)
    (hxor : ∀ a a' b b', f (a ^^^ a') (b ^^^ b') = f a b ^^^ f a' b') {as : List (BitVec u)} {bs : List (BitVec v)}
    (hlen : as.length = bs.length) : xorAll (List.zipWith f as bs) = f (xorAll as) (xorAll bs) := by
  induction as generalizing bs with
  | nil => obtain rfl := List.length_eq_zero_iff.mp hlen.symm; exact hzero.symm
  | cons a as ih =>
    obtain ⟨b, bs, rfl⟩ := List.exists_cons_of_length_eq_add_one hlen.symm
    rw [List.zipWith_cons_cons, xorAll_cons, ih (by simpa using hlen), xorAll_cons, xorAll_cons, hxor]

theorem xorAll_map_bitAt (vs : List Word) (k : Nat) : xorAll (vs.map (bitAt · k)) = bitAt (xorAll vs) k :=
  xorAll_map_linear (by simp) (fun _ _ => BitVec.extractLsb'_xor) vs

theorem setBit_xor (v v' : Word) {k : Nat} (b b' : BitVec 1) (hk : k < 32) :
    setBit (v ^^^ v') k (b ^^^ b') = setBit v k b ^^^ setBit v' k b' := by
  apply BitVec.eq_of_getLsbD_eq
  intro i hi
  simp only [BitVec.getLsbD_xor, getLsbD_setBit _ k _ hk i hi]
  split <;> rfl

theorem xorAll_zipWith_setBit {zs : List Word} {bits : List (BitVec 1)} {k : Nat} (hk : k < 32)
    (hlen : zs.length = bits.length) :
    xorAll (List.zipWith (fun z bit => setBit z k bit) zs bits) = setBit (xorAll zs) k (xorAll bits) :=
  xorAll_zipWith_linear (by simp [setBit]) (fun v v' b b' => setBit_xor v v' b b' hk) hlen

/-! ### The secure AND (41_secure_adders.md R101, R102) -/

/-- Column i of the draw matrix: what the shares after share i take from it. -/
theorem xorAll_secAnd_cross {w : Nat} (x y : BitVec w) {r : List (BitVec w)} {ps : List (BitVec w × BitVec w)}
    (hlen : r.length = ps.length) :
    xorAll (List.zipWith (fun rj p => (rj ^^^ (x &&& p.2)) ^^^ (p.1 &&& y)) r ps) =
      xorAll r ^^^ (x &&& xorAll (ps.map Prod.snd)) ^^^ (xorAll (ps.map Prod.fst) &&& y) := by
  induction ps generalizing r with
  | nil => obtain rfl := List.length_eq_zero_iff.mp hlen; simp
  | cons p ps ih =>
    obtain ⟨rj, r, rfl⟩ := List.exists_cons_of_length_eq_add_one hlen
    rw [List.zipWith_cons_cons, xorAll_cons, ih (by simpa using hlen)]
    simp only [List.map_cons, xorAll_cons, and_xor_left, and_xor_right]
    ac_rfl

/-- Each draw enters two shares and cancels; the products of all pairs of shares remain. -/
theorem secAnd_xorAll {w : Nat} (ps : List (BitVec w × BitVec w)) (ws : List Word) :
    xorAll (secAnd ps ws).1 = xorAll (ps.map Prod.fst) &&& xorAll (ps.map Prod.snd) := by
  induction ps generalizing ws with
  | nil => simp [secAnd]
  | cons p ps ih =>
    obtain ⟨x, y⟩ := p
    have hlen : ((randMany ps.length ws).1.map (BitVec.setWidth w)).length = ps.length := by simp
    simp only [secAnd, xorAll_cons, List.map_cons]
    generalize (randMany ps.length ws).1.map (BitVec.setWidth w) = r at hlen ⊢
    rw [show List.zipWith (· ^^^ ·) = xorShares (w := w) from rfl, xorAll_xorShares _ _ (by simp [hlen]), ih,
      xorAll_secAnd_cross x y hlen]
    grind

theorem secAndW_xorAll {X Y : List Word} (hlen : X.length = Y.length) (ws : List Word) :
    xorAll (secAndW X Y ws).1 = xorAll X &&& xorAll Y := by
  rw [secAndW, secAnd_xorAll, List.map_fst_zip hlen.le, List.map_snd_zip hlen.ge]

theorem secAndBit_xorAll {a b : List (BitVec 1)} (hlen : a.length = b.length) (ws : List Word) :
    xorAll (secAndBit a b ws).1 = xorAll a &&& xorAll b := by
  rw [secAndBit, secAnd_xorAll, List.map_fst_zip hlen.le, List.map_snd_zip hlen.ge]

/-- Row i of the draw matrix takes one word for each later share. -/
theorem secAnd_rest {w : Nat} (ps : List (BitVec w × BitVec w)) (ws : List Word) :
    (secAnd ps ws).2 = ws.drop (secAndDraws ps.length) := by
  induction ps generalizing ws with
  | nil => simp [secAnd, secAndDraws]
  | cons p ps ih =>
    rw [secAnd, ih, randMany_rest, List.drop_drop, List.length_cons, secAndDraws, secAndDraws, Nat.triangle_succ,
      Nat.add_comm]

/-! ### The carries of a sum, and the boolean adder (41_secure_adders.md R103) -/

/-- The word of the carries into each bit of x + y. -/
def carries (x y : Word) : Word := (x + y) ^^^ x ^^^ y

theorem add_eq_xor_carries (x y : Word) : x + y = x ^^^ y ^^^ carries x y := by
  grind [carries]

theorem getLsbD_carries (x y : Word) {i : Nat} (hi : i < 32) :
    (carries x y).getLsbD i = BitVec.carry i x y false := by
  simp only [carries, BitVec.getLsbD_xor, BitVec.getLsbD_add hi]
  grind

@[simp] theorem getLsbD_bitAt (v : Word) (k : Nat) : (bitAt v k).getLsbD 0 = v.getLsbD k := by
  simp [bitAt]

/-- The carry out of bit k, as the adder computes it from the shared bits and carry. -/
theorem getLsbD_carry_succ {x y : Word} {k : Nat} {c : BitVec 1} (hc : c.getLsbD 0 = BitVec.carry k x y false) :
    (((bitAt x k ^^^ c) &&& (bitAt y k ^^^ c)) ^^^ c).getLsbD 0 = BitVec.carry (k + 1) x y false := by
  simp only [BitVec.carry_succ, ← hc, BitVec.getLsbD_xor, BitVec.getLsbD_and, getLsbD_bitAt, Bool.atLeastTwo]
  grind

/-- Bit k of the sum, written over a word that has its bits below k. -/
theorem getLsbD_setBit_sum {x y z : Word} {k : Nat} {c : BitVec 1} (hk : k < 32)
    (hc : c.getLsbD 0 = BitVec.carry k x y false) (hbits : ∀ i < k, z.getLsbD i = (x + y).getLsbD i) :
    ∀ i < k + 1, (setBit z k (bitAt x k ^^^ bitAt y k ^^^ c)).getLsbD i = (x + y).getLsbD i := by
  intro i hi
  rw [getLsbD_setBit _ _ _ hk i (by omega)]
  split
  next heq => subst heq; simp only [BitVec.getLsbD_xor, getLsbD_bitAt, hc, BitVec.getLsbD_add hk, Bool.xor_assoc]
  next hne => exact hbits i (by omega)

section BoolAdd

variable {X Y : List Word} {n k : Nat} {c : List (BitVec 1)} {Z : List Word}

/-- The boolean adder's value: the bits below k of Z are the sum's, and c is the carry into bit k while one is left to
compute. -/
theorem boolAddFrom_xorAll (ws : List Word) (hY : Y.length = X.length) (hc : c.length = X.length)
    (hZ : Z.length = X.length) (hk : k + n = 32)
    (hcarry : k < 32 → (xorAll c).getLsbD 0 = BitVec.carry k (xorAll X) (xorAll Y) false)
    (hbits : ∀ i < k, (xorAll Z).getLsbD i = (xorAll X + xorAll Y).getLsbD i) :
    xorAll (boolAddFrom X Y n k c Z ws).1 = xorAll X + xorAll Y := by
  induction n generalizing k c Z ws with
  | zero => exact BitVec.eq_of_getLsbD_eq fun i hi => hbits i (by omega)
  | succ n ih =>
    have hk32 : k < 32 := by omega
    have hsum := getLsbD_setBit_sum hk32 (hcarry hk32) hbits
    rw [← xorAll_map_bitAt, ← xorAll_map_bitAt, ← xorAll_xorShares _ _ (by simp [hY]),
      ← xorAll_xorShares _ _ (by simp [hY, hc]), ← xorAll_zipWith_setBit hk32 (by simp [hY, hc, hZ])] at hsum
    rw [boolAddFrom]
    split
    · refine ih _ (by simp [secAndBit_length, hY, hc]) (by simp [hY, hc, hZ]) (by omega) (fun _ => ?_) hsum
      rw [xorAll_xorShares _ _ (by simp [secAndBit_length, hY, hc]), secAndBit_xorAll (by simp [hY]),
        xorAll_xorShares _ _ (by simp [hc]), xorAll_xorShares _ _ (by simp [hY, hc]), xorAll_map_bitAt,
        xorAll_map_bitAt, getLsbD_carry_succ (hcarry hk32)]
    · exact ih _ hc (by simp [hY, hc, hZ]) (by omega) (by omega) hsum

theorem boolAdd_xorAll (ws : List Word) (hY : Y.length = X.length) :
    xorAll (boolAdd X Y ws).1 = xorAll X + xorAll Y :=
  boolAddFrom_xorAll ws hY (by simp) (by simp) rfl (fun _ => by simp [List.map_const', BitVec.carry_zero]) (by simp)

/-- Every position but the last draws for one secure AND. -/
theorem boolAddFrom_rest (ws : List Word) (hY : Y.length = X.length) (hc : c.length = X.length) (hk : k + n = 32) :
    (boolAddFrom X Y n k c Z ws).2 = ws.drop ((31 - k) * secAndDraws X.length) := by
  induction n generalizing k c Z ws with
  | zero => simp [boolAddFrom, show k = 32 by omega]
  | succ n ih =>
    rw [boolAddFrom]
    split
    next hlt =>
      rw [ih _ (by simp [secAndBit_length, hY, hc]) (by omega), secAndBit, secAnd_rest, List.drop_drop,
        show 31 - k = 31 - (k + 1) + 1 by omega, Nat.succ_mul, Nat.add_comm]
      simp [hY, hc]
    next hlast => rw [ih _ hc (by omega), show 31 - (k + 1) = 31 - k by omega]

theorem boolAdd_rest (ws : List Word) (hY : Y.length = X.length) :
    (boolAdd X Y ws).2 = ws.drop (31 * secAndDraws X.length) :=
  boolAddFrom_rest ws hY (by simp) rfl

end BoolAdd

/-! ### The loops of A2B and the Goubin adder (41_secure_adders.md R105, R107)

Both iterate a map whose bit i + 1 reads bit i only. Such a map has at most one fixed point, each iteration settles one
more bit of it, and the carries of a sum are one. -/

/-- The common form of the loop bodies. -/
def carryStep (m om t : Word) : Word := ((t &&& m) ^^^ om) <<< 1

theorem a2bStep_eq (om a r : Word) : a2bStep om a r = carryStep (a ^^^ r) om := by
  funext t
  have hbody : (t &&& r) ^^^ om ^^^ (t &&& a) = (t &&& (a ^^^ r)) ^^^ om := by grind
  rw [carryStep, ← hbody, a2bStep]

theorem goubinStep_eq (a0 a1 om t : Word) : goubinStep a0 a1 om t = carryStep (a0 ^^^ a1) (om ^^^ t) := by
  funext b
  have hbody : (b &&& a0) ^^^ (b &&& a1) ^^^ om ^^^ t = (b &&& (a0 ^^^ a1)) ^^^ (om ^^^ t) := by grind
  rw [carryStep, ← hbody, goubinStep]

theorem getLsbD_carryStep_zero (m om t : Word) : (carryStep m om t).getLsbD 0 = false := by simp [carryStep]

theorem getLsbD_carryStep_succ (m om t : Word) {i : Nat} (hi : i + 1 < 32) :
    (carryStep m om t).getLsbD (i + 1) = ((t.getLsbD i && m.getLsbD i) ^^ om.getLsbD i) := by
  rw [carryStep, BitVec.getLsbD_shiftLeft, Nat.add_sub_cancel, BitVec.getLsbD_xor, BitVec.getLsbD_and]
  simp [hi]

/-- If the bits below k of t are the fixed point's, those below k + 1 of the step's result are. -/
theorem getLsbD_carryStep {m om p t : Word} {k : Nat} (hp : carryStep m om p = p)
    (h : ∀ i < k, t.getLsbD i = p.getLsbD i) : ∀ i < k + 1, (carryStep m om t).getLsbD i = p.getLsbD i := by
  intro i hi
  by_cases h32 : i < 32
  · rw [← hp]
    cases i with
    | zero => simp only [getLsbD_carryStep_zero]
    | succ i => simp only [getLsbD_carryStep_succ _ _ _ h32, h i (by omega)]
  · simp [BitVec.getLsbD_of_ge _ i (Nat.le_of_not_lt h32)]

/-- Enough iterations from any start reach the fixed point. -/
theorem carryStep_iterate {m om p t : Word} {k n : Nat} (hp : carryStep m om p = p)
    (h : ∀ i < k, t.getLsbD i = p.getLsbD i) (hn : 32 ≤ k + n) : (carryStep m om)^[n] t = p := by
  induction n generalizing k t with
  | zero => exact BitVec.eq_of_getLsbD_eq fun i hi => h i (by omega)
  | succ n ih => exact ih (getLsbD_carryStep hp h) (by omega)

theorem carryStep_fixed_unique {m om p q : Word} (hp : carryStep m om p = p) (hq : carryStep m om q = q) : q = p := by
  rw [← carryStep_iterate (t := q) (k := 0) (n := 32) hp (by simp) (by simp), Function.iterate_fixed hq]

theorem carries_fixed (x y : Word) : carryStep (x ^^^ y) (x &&& y) (carries x y) = carries x y := by
  apply BitVec.eq_of_getLsbD_eq
  intro i hi
  rw [getLsbD_carries x y hi]
  cases i with
  | zero => rw [getLsbD_carryStep_zero, BitVec.carry_zero]
  | succ i =>
    simp only [getLsbD_carryStep_succ _ _ _ hi, BitVec.getLsbD_xor, BitVec.getLsbD_and,
      getLsbD_carries x y (Nat.lt_of_succ_lt hi), BitVec.carry_succ, Bool.atLeastTwo]
    grind

/-- The carries under a mask c <<< 1 are a fixed point too: the loops' carry term has c and c <<< 1 as masks. -/
theorem carries_masked_fixed (x y c : Word) :
    carryStep (x ^^^ y) ((x &&& y) ^^^ c ^^^ (c <<< 1 &&& (x ^^^ y))) (carries x y ^^^ c <<< 1) =
      carries x y ^^^ c <<< 1 := by
  have hmask : ((carries x y ^^^ c <<< 1) &&& (x ^^^ y)) ^^^ ((x &&& y) ^^^ c ^^^ (c <<< 1 &&& (x ^^^ y))) =
      ((carries x y &&& (x ^^^ y)) ^^^ (x &&& y)) ^^^ c := by
    rw [and_xor_right]
    grind
  rw [carryStep, hmask, BitVec.shiftLeft_xor_distrib, ← carryStep, carries_fixed]

theorem carries_low_bits (x y : Word) : ∀ i < 2, ((x &&& y) <<< 1).getLsbD i = (carries x y).getLsbD i := by
  have hstep : carryStep (x ^^^ y) (x &&& y) 0#32 = (x &&& y) <<< 1 := by simp [carryStep]
  refine hstep ▸ getLsbD_carryStep (k := 1) (carries_fixed x y) fun i hi => ?_
  obtain rfl : i = 0 := by omega
  rw [getLsbD_carries x y (by decide), BitVec.carry_zero, BitVec.getLsbD_zero]

/-! ### The conversions (41_secure_adders.md R104, R105) -/

/-- The loop on T finds the carries of A + r under the mask γ << 1. -/
theorem a2b_eq (a r g : Word) : a2b a r g = (a + r) ^^^ r := by
  have hom : (g &&& (g ^^^ r)) ^^^ ((g ^^^ (g <<< 1 ^^^ a)) &&& r) ^^^ (g <<< 1 &&& a) =
      (a &&& r) ^^^ g ^^^ (g <<< 1 &&& (a ^^^ r)) := by
    generalize g <<< 1 = t
    grind
  simp only [a2b, a2bStep_eq, hom]
  rw [carryStep_iterate (k := 0) (carries_masked_fixed a r g) (by simp) (by simp), add_eq_xor_carries]
  grind

/-- The borrows of (x ⊕ r) − r. -/
def borrows (x r : Word) : Word := ((x ^^^ r) - r) ^^^ x

theorem sub_eq_borrows_xor (x r : Word) : (x ^^^ r) - r = borrows x r ^^^ x := by
  rw [borrows, xor_cancel_right]

/-- The borrows are the carries of the difference and r, whose sum is x ⊕ r. -/
theorem borrows_fixed (x r : Word) : carryStep (~~~x) (x &&& r) (borrows x r) = borrows x r := by
  have hcarries : carries ((x ^^^ r) - r) r = borrows x r := by
    rw [carries, BitVec.sub_add_cancel, borrows]
    grind
  have hstep : (borrows x r &&& ~~~x) ^^^ (x &&& r) =
      (borrows x r &&& (((x ^^^ r) - r) ^^^ r)) ^^^ (((x ^^^ r) - r) &&& r) := by
    rw [sub_eq_borrows_xor]
    grind
  rw [carryStep, hstep, ← carryStep, ← hcarries, carries_fixed]

/-- A borrow is the mask's bit under a 1 of x and the borrow before under a 0, so the borrows are linear in the mask. -/
theorem borrows_xor (x r r' : Word) : borrows x (r ^^^ r') = borrows x r ^^^ borrows x r' := by
  refine carryStep_fixed_unique (m := ~~~x) (om := x &&& (r ^^^ r')) ?_ (borrows_fixed x (r ^^^ r'))
  have h : ((borrows x r ^^^ borrows x r') &&& ~~~x) ^^^ (x &&& (r ^^^ r')) =
      ((borrows x r &&& ~~~x) ^^^ (x &&& r)) ^^^ ((borrows x r' &&& ~~~x) ^^^ (x &&& r')) := by
    grind
  rw [carryStep, h, BitVec.shiftLeft_xor_distrib, ← carryStep, ← carryStep, borrows_fixed, borrows_fixed]

/-- The result joins the borrows under the masks γ ⊕ r and γ, and these are the borrows under r. -/
theorem b2a_eq (x r g : Word) : b2a x r g = (x ^^^ r) - r := by
  have hmask : g ^^^ (g ^^^ r) = r := xor_cancel_left g r
  calc b2a x r g = (borrows x g ^^^ borrows x (g ^^^ r)) ^^^ x := by
        unfold borrows b2a
        grind
    _ = (x ^^^ r) - r := by rw [← borrows_xor, hmask, sub_eq_borrows_xor]

/-- The converted operands are X − x_1 and Y − y_1, and the sum's mask is x_1 + y_1 (41_secure_adders.md R106). -/
theorem convAdd_eq (x0 x1 y0 y1 g1 g2 g3 : Word) :
    convAdd x0 x1 y0 y1 g1 g2 g3 = (((x0 ^^^ x1) + (y0 ^^^ y1)) ^^^ (x1 + y1), x1 + y1) := by
  simp only [convAdd, b2a_eq, a2b_eq, Prod.mk.injEq, and_true]
  congr 1
  ring

/-! ### The Goubin adder (41_secure_adders.md R107) -/

/-- The loop on B finds the carries of X + Y under the mask C << 1; its start has the lowest two bits. -/
theorem goubinAdd_eq (x0 x1 y0 y1 c : Word) :
    goubinAdd x0 x1 y0 y1 c =
      (((x0 ^^^ x1) + (y0 ^^^ y1)) ^^^ (x1 ^^^ y1 ^^^ c <<< 1), x1 ^^^ y1 ^^^ c <<< 1) := by
  generalize hX : x0 ^^^ x1 = X, hY : y0 ^^^ y1 = Y
  have hm : (x0 ^^^ y0) ^^^ (x1 ^^^ y1) = X ^^^ Y := by grind
  have hom : c ^^^ (x0 &&& y0) ^^^ (x0 &&& y1) ^^^ (x1 &&& y0) ^^^ (x1 &&& y1) = (X &&& Y) ^^^ c := by grind
  have ht : (c <<< 1 &&& (x0 ^^^ y0)) ^^^ (c <<< 1 &&& (x1 ^^^ y1)) = c <<< 1 &&& (X ^^^ Y) := by
    rw [← and_xor_left, hm]
  have hstart : ∀ i < 2, (((X &&& Y) ^^^ c) <<< 1).getLsbD i = (carries X Y ^^^ c <<< 1).getLsbD i := fun i hi => by
    rw [BitVec.shiftLeft_xor_distrib, BitVec.getLsbD_xor, BitVec.getLsbD_xor, carries_low_bits X Y i hi]
  simp only [goubinAdd, goubinStep_eq, hm, hom, ht]
  rw [carryStep_iterate (n := 30) (carries_masked_fixed X Y c) hstart (by decide), add_eq_xor_carries, ← hm]
  refine Prod.ext ?_ rfl
  grind

/-! ### The Kogge-Stone adder (41_secure_adders.md R108-R111) -/

theorem secAnd5_eq (x y s t u : Word) : secAnd5 x y s t u = u ^^^ ((x ^^^ s) &&& (y ^^^ t)) := by
  rw [secAnd5, and_xor_left, and_xor_right, and_xor_right]
  ac_rfl

theorem secShift_eq (x s t : Word) (j : Nat) : secShift x s t j = ((x ^^^ s) <<< j) ^^^ t := by
  rw [secShift, BitVec.shiftLeft_xor_distrib]
  ac_rfl

theorem ksG_eq (s t u : Word) (j : Nat) (p g : Word) :
    ksG s t u j p g = g ^^^ ((p ^^^ s) &&& ((g ^^^ s) <<< j)) := by
  rw [ksG, secShift_eq, secAnd5_eq, secXor, xor_cancel_right]
  grind

theorem ksP_eq (s t u : Word) (j : Nat) (p : Word) :
    ksP s t u j p = ((p ^^^ s) &&& ((p ^^^ s) <<< j)) ^^^ s := by
  rw [ksP, secShift_eq, secAnd5_eq, xor_cancel_right]
  grind

/-- The word of the carries out of each bit of x + y. -/
def carriesOut (x y : Word) : Word := (carries x y &&& (x ^^^ y)) ^^^ (x &&& y)

theorem carriesOut_shiftLeft (x y : Word) : carriesOut x y <<< 1 = carries x y := carries_fixed x y

/-- P and G, under mask s, span w bits: a carry leaves a bit when the w bits up to it generate one, or all propagate the
one that came into them (R111). -/
def PrefixSpan (x y s : Word) (w : Nat) (pg : Word × Word) : Prop :=
  carriesOut x y = (pg.2 ^^^ s) ^^^ ((pg.1 ^^^ s) &&& (carriesOut x y <<< w))

theorem prefixSpan_one (x y s : Word) : PrefixSpan x y s 1 ((x ^^^ y) ^^^ s, (x &&& y) ^^^ s) := by
  rw [PrefixSpan, carriesOut_shiftLeft, carriesOut]
  grind

/-- A level doubles the span. -/
theorem PrefixSpan.ksLevel {x y s : Word} {w : Nat} {pg : Word × Word} (h : PrefixSpan x y s w pg) (t u : Word) :
    PrefixSpan x y s (w + w) (ksLevel s t u pg w) := by
  have hshift : carriesOut x y <<< w =
      ((pg.2 ^^^ s) <<< w) ^^^ (((pg.1 ^^^ s) <<< w) &&& (carriesOut x y <<< (w + w))) := by
    rw [BitVec.shiftLeft_add, ← BitVec.shiftLeft_and_distrib, ← BitVec.shiftLeft_xor_distrib, ← h]
  unfold PrefixSpan at h ⊢
  rw [Machine.ksLevel, ksG_eq, ksP_eq]
  refine h.trans ?_
  rw [hshift]
  grind

/-- Five levels span the word, so the last G is the carries out (R111). -/
theorem ksAdd_eq (x0 x1 y0 y1 t u : Word) :
    ksAdd x0 x1 y0 y1 t u = (((x0 ^^^ x1) + (y0 ^^^ y1)) ^^^ x1, x1) := by
  generalize hX : x0 ^^^ x1 = X, hY : y0 ^^^ y1 = Y
  have hp : secXor x0 y0 y1 = (X ^^^ Y) ^^^ x1 := by rw [secXor]; grind
  have hg : secAnd5 x0 y0 x1 y1 u ^^^ x1 ^^^ u = (X &&& Y) ^^^ x1 := by rw [secAnd5_eq, hX, hY]; grind
  have hspan : PrefixSpan X Y x1 32 (ksLevel x1 t u _ 16) :=
    (((((prefixSpan_one X Y x1).ksLevel t u).ksLevel t u).ksLevel t u).ksLevel t u).ksLevel t u
  rw [PrefixSpan, BitVec.shiftLeft_eq_zero le_rfl, BitVec.and_zero, BitVec.xor_zero] at hspan
  have hz {g : Word} (hout : carriesOut X Y = g ^^^ x1) :
      secXor y0 x0 x1 ^^^ g <<< 1 ^^^ x1 <<< 1 ^^^ (x1 ^^^ y1) = (X + Y) ^^^ x1 := by
    rw [BitVec.xor_assoc _ (g <<< 1), ← BitVec.shiftLeft_xor_distrib, ← hout, carriesOut_shiftLeft,
      add_eq_xor_carries, secXor, ← hX, ← hY]
    grind
  simp only [ksAdd, hp, hg, List.foldl]
  exact Prod.ext (hz hspan) rfl

/-! ### Every masked adder: its value and its draws (41_secure_adders.md R100, R114) -/

theorem xorAll_pair (a b : Word) : xorAll [a, b] = a ^^^ b := by simp

theorem xorAll_masked_pair (a m : Word) : xorAll [a ^^^ m, m] = a := by
  rw [xorAll_pair, xor_cancel_right]

section TwoShares

variable (x0 x1 y0 y1 : Word) (ws : List Word)

theorem convAddShares_pair :
    (convAddShares [x0, x1] [y0, y1] ws).1 = [((x0 ^^^ x1) + (y0 ^^^ y1)) ^^^ (x1 + y1), x1 + y1] := by
  simp [convAddShares, onPairs, convAdd_eq]

theorem goubinAddShares_pair :
    (goubinAddShares [x0, x1] [y0, y1] ws).1 =
      [((x0 ^^^ x1) + (y0 ^^^ y1)) ^^^ (x1 ^^^ y1 ^^^ ws.headD 0#32 <<< 1), x1 ^^^ y1 ^^^ ws.headD 0#32 <<< 1] := by
  simp [goubinAddShares, onPairs, goubinAdd_eq, rand32]

theorem ksAddShares_pair :
    (ksAddShares [x0, x1] [y0, y1] ws).1 = [((x0 ^^^ x1) + (y0 ^^^ y1)) ^^^ x1, x1] := by
  simp [ksAddShares, onPairs, ksAdd_eq]

end TwoShares

section MAdd

variable {X Y : List Word}

/-- The contract of an adder on operands of two shares, from its closed form. -/
theorem xorAll_of_masked_pair {add : List Word → List Word → List Word × List Word}
    {m : Word → Word → Word → Word → Word}
    (hadd : ∀ x0 x1 y0 y1, (add [x0, x1] [y0, y1]).1 = [((x0 ^^^ x1) + (y0 ^^^ y1)) ^^^ m x0 x1 y0 y1, m x0 x1 y0 y1])
    (hX : X.length = 2) (hY : Y.length = 2) : xorAll (add X Y).1 = xorAll X + xorAll Y := by
  obtain ⟨x0, x1, rfl⟩ := List.length_eq_two.mp hX
  obtain ⟨y0, y1, rfl⟩ := List.length_eq_two.mp hY
  rw [hadd, xorAll_masked_pair, xorAll_pair, xorAll_pair]

theorem goubinAddShares_xorAll (ws : List Word) (hX : X.length = 2) (hY : Y.length = 2) :
    xorAll (goubinAddShares X Y ws).1 = xorAll X + xorAll Y :=
  xorAll_of_masked_pair (add := (goubinAddShares · · ws)) (fun x0 x1 y0 y1 => goubinAddShares_pair x0 x1 y0 y1 ws) hX hY

/-- The contract of an adder on operands of as many shares as its scheme adds at. -/
theorem mAdd_xorAll (sch : Scheme) (ws : List Word) (hY : Y.length = X.length) (hf : schemeFits X.length sch) :
    xorAll (mAdd sch X Y ws).1 = xorAll X + xorAll Y := by
  cases sch with
  | bool => exact boolAdd_xorAll ws hY
  | conv =>
    exact xorAll_of_masked_pair (add := (convAddShares · · ws)) (fun x0 x1 y0 y1 => convAddShares_pair x0 x1 y0 y1 ws)
      hf (hY.trans hf)
  | goubin => exact goubinAddShares_xorAll ws hf (hY.trans hf)
  | ks =>
    exact xorAll_of_masked_pair (add := (ksAddShares · · ws)) (fun x0 x1 y0 y1 => ksAddShares_pair x0 x1 y0 y1 ws)
      hf (hY.trans hf)
  | ho =>
    rw [mAdd, hoAdd]
    split
    next htwo => exact goubinAddShares_xorAll ws htwo (hY.trans htwo)
    next => rw [xorAll_cons, xor_cancel_right]

/-- HOAdd at d other than 2: shares 1..d-1 are the draws, and share 0 completes the sum (R113). -/
theorem hoAdd_draws {ws : List Word} (hX : X.length ≠ 2) (hws : X.length - 1 ≤ ws.length) :
    (hoAdd X Y ws).1 =
      ((xorAll X + xorAll Y) ^^^ xorAll (ws.take (X.length - 1))) :: ws.take (X.length - 1) := by
  simp only [hoAdd, if_neg hX, randMany_words _ _ hws]

/-- An adder's draws depend on its scheme and the number of shares alone. -/
theorem mAdd_rest (sch : Scheme) (ws : List Word) (hY : Y.length = X.length) :
    (mAdd sch X Y ws).2 = ws.drop (adderDraws X.length sch) := by
  cases sch with
  | bool => exact boolAdd_rest ws hY
  | conv => exact randMany_rest 3 ws
  | goubin => exact randMany_rest 1 ws
  | ks => exact randMany_rest 2 ws
  | ho =>
    rw [mAdd, hoAdd, adderDraws]
    split
    next => exact randMany_rest 1 ws
    next => exact randMany_rest _ _

end MAdd

/-! ### The draws of the masked permutation (42_masked_permutation.md R144-R147) -/

section MaskedDraws

variable {sch : Scheme} {d : Nat}

theorem mAlzetteStep_rest (rc : Word) {st : (List Word × List Word) × List Word} (sh : Nat × Nat)
    (hX : st.1.1.length = d) (hY : st.1.2.length = d) :
    (mAlzetteStep sch rc st sh).2 = st.2.drop (adderDraws d sch) := by
  rw [mAlzetteStep, mAdd_rest sch _ (by simp [hX, hY]), hX]

theorem mAlzetteFold_rest (hf : schemeFits d sch) (rc : Word) (shs : List (Nat × Nat))
    {st : (List Word × List Word) × List Word} (hX : st.1.1.length = d) (hY : st.1.2.length = d) :
    (shs.foldl (mAlzetteStep sch rc) st).2 = st.2.drop (shs.length * adderDraws d sch) := by
  induction shs generalizing st with
  | nil => simp
  | cons sh shs ih =>
    obtain ⟨hX', hY'⟩ := mAlzetteStep_lengths sch rc st sh d hX hY hf
    rw [List.foldl_cons, ih hX' hY', mAlzetteStep_rest rc sh hX hY, List.drop_drop, List.length_cons, Nat.succ_mul,
      Nat.add_comm]

theorem mAlzette_rest {col : List Branch} (hf : schemeFits d sch) (rc : Word) (ws : List Word)
    (hcol : col.length = d) : (mAlzette sch rc col ws).2 = ws.drop (4 * adderDraws d sch) :=
  mAlzetteFold_rest hf rc alzetteShifts (by simp [hcol]) (by simp [hcol])

variable {rows : List (List Branch)}

/-- Each branch draws for its four additions, and the number of rows stays. -/
theorem maskedArx_length_rest (hf : schemeFits d sch) (bs : List Nat) (ws : List Word) (hrows : rows.length = d) :
    (maskedArx sch bs rows ws).1.length = d ∧
      (maskedArx sch bs rows ws).2 = ws.drop (bs.length * (4 * adderDraws d sch)) := by
  induction bs generalizing rows ws with
  | nil => exact ⟨hrows, by simp [maskedArx]⟩
  | cons b bs ih =>
    have hcol : (column rows b).length = d := by simp [column, hrows]
    have hset : (setColumn rows b (mAlzette sch (rconAt b) (column rows b) ws).1).length = d := by
      simp [setColumn, mAlzette_length _ _ _ _ (hcol.symm ▸ hf), hcol, hrows]
    obtain ⟨hlen, hdraws⟩ := ih (mAlzette sch (rconAt b) (column rows b) ws).2 hset
    refine ⟨hlen, ?_⟩
    rw [maskedArx, hdraws, mAlzette_rest hf _ ws hcol, List.drop_drop, List.length_cons, Nat.succ_mul bs.length,
      Nat.add_comm]

theorem maskedConstAdd_length (i : Nat) (rows : List (List Branch)) : (maskedConstAdd i rows).length = rows.length := by
  cases rows <;> rfl

theorem maskedPermute_length_rest (hf : schemeFits d sch) (nb n : Nat) (ws : List Word) (hrows : rows.length = d) :
    (maskedPermute sch nb n rows ws).1.length = d ∧
      (maskedPermute sch nb n rows ws).2 = ws.drop (n * nb * 4 * adderDraws d sch) := by
  induction n with
  | zero => exact ⟨hrows, by simp [maskedPermute]⟩
  | succ n ih =>
    obtain ⟨hlen, hdraws⟩ := ih
    obtain ⟨hlen', hdraws'⟩ := maskedArx_length_rest hf (List.range nb) (maskedPermute sch nb n rows ws).2
      ((maskedConstAdd_length n _).trans hlen)
    rw [maskedPermute_succ]
    refine ⟨by simpa [maskedRound] using hlen', ?_⟩
    rw [maskedRound, hdraws', hdraws, List.drop_drop, List.length_range]
    congr 1
    ring

end MaskedDraws

/-! ### The primitive commands' results (41_secure_adders.md R115-R122) -/

section Commands

variable {i : Instr} {d : Nat} {zs : List Word} {s : State}

theorem pzShares_splice {t : State} (hpz : t.pz = splice zs s.pz) (hlen : zs.length ≤ 16) :
    pzShares zs.length t = zs := by
  rw [pzShares, hpz, splice_toList, List.take_of_length_le hlen, List.take_left]

theorem getD_cons_take {α : Type} {a z : α} {as : List α} {n k : Nat} (hk : 1 ≤ k) (hn : k ≤ n) :
    (a :: as.take n).getD k z = as.getD (k - 1) z := by
  obtain ⟨j, rfl⟩ := Nat.exists_eq_add_of_le' hk
  rw [List.getD_cons_succ, Nat.add_sub_cancel, List.getD_eq_getElem?_getD, List.getElem?_take_of_lt hn,
    List.getD_eq_getElem?_getD]

theorem pz_eq_getD {k : Fin 16} (hk : k.val < d) : s.pz[k] = (pzShares d s).getD k.val 0#32 := by
  simp [pzShares, hk]

theorem pxShares_length_of_le (hd : d ≤ s.cfg.dmax) : (pxShares d s).length = d := by
  rw [pxShares_length, Nat.min_eq_left (hd.trans s.cfg.legal.2)]

/-- A primitive command completes with its shares in PZ[0..d-1] and all other data as it was. -/
theorem exec_shares (hi : WritesPz i d) (h : Ready i s) (hres : resultOf i s.got s = setPz zs s)
    (hlen : zs.length = d) :
    ∃ t, exec i s = .next t ∧ Completed (draws i) s t ∧ pzShares d t = zs ∧
      (∀ k : Fin 16, d ≤ k.val → t.pz[k] = s.pz[k]) ∧ t.sh = s.sh ∧ t.px = s.px ∧ t.py = s.py := by
  have ⟨_, hw, _⟩ := h
  obtain ⟨t, hexec, hdone, hsh, hpx, hpy, hpz⟩ := exec_ready h
  rw [hres] at hsh hpx hpy hpz
  have hfit : zs.length ≤ 16 := hlen ▸ (hi.le_dmax s.cfg hw).trans s.cfg.legal.2
  refine ⟨t, hexec, hdone, hlen ▸ pzShares_splice hpz hfit, fun k hk => ?_, hsh, hpx, hpy⟩
  rw [hpz, setPz_pz_of_le (hlen.trans_le hk)]

theorem toList_take_two (v : Vector Word 16) : v.toList.take 2 = [v[0], v[1]] := by
  refine List.ext_getElem (by simp) fun k hk _ => ?_
  have hk2 : k < 2 := (List.length_take_le 2 _).trans_lt' hk
  interval_cases k <;> simp

/-- A command of two shares completes with them in PZ[0] and PZ[1]. -/
theorem exec_pair {z0 z1 : Word} (hi : WritesPz i 2) (h : Ready i s) (hres : resultOf i s.got s = setPz [z0, z1] s) :
    ∃ t, exec i s = .next t ∧ Completed (draws i) s t ∧ t.pz[0] = z0 ∧ t.pz[1] = z1 ∧
      (∀ k : Fin 16, 2 ≤ k.val → t.pz[k] = s.pz[k]) ∧ t.sh = s.sh ∧ t.px = s.px ∧ t.py = s.py := by
  obtain ⟨t, hexec, hdone, hpz, hframe⟩ := exec_shares hi h hres rfl
  rw [pzShares, toList_take_two, List.cons.injEq, List.cons.injEq] at hpz
  obtain ⟨hz0, hz1, -⟩ := hpz
  exact ⟨t, hexec, hdone, hz0, hz1, hframe⟩

/-- MADD of two shares, from the closed form of the scheme's adder. -/
theorem exec_madd_pair {sch : Scheme} {z0 z1 : Word} (h : Ready (maddOf sch 2#5) s)
    (hadd : (mAdd sch [s.px[0], s.px[1]] [s.py[0], s.py[1]] s.got).1 = [z0, z1]) :
    ∃ t, exec (maddOf sch 2#5) s = .next t ∧ Completed (draws (maddOf sch 2#5)) s t ∧ t.pz[0] = z0 ∧ t.pz[1] = z1 ∧
      (∀ k : Fin 16, 2 ≤ k.val → t.pz[k] = s.pz[k]) ∧ t.sh = s.sh ∧ t.px = s.px ∧ t.py = s.py := by
  refine exec_pair (.inl ⟨2, rfl, .inr ⟨sch, rfl⟩⟩) h ?_
  rw [resultOf_maddOf, maddResult, pxShares, pyShares, show (2#5).toNat = 2 from rfl, toList_take_two,
    toList_take_two, hadd]

/-- MADD's shares recombine to the sum of the operands, at every order its scheme accepts. -/
theorem exec_madd (sch : Scheme) {d : BitVec 5} (h : Ready (maddOf sch d) s) :
    ∃ t, exec (maddOf sch d) s = .next t ∧ Completed (draws (maddOf sch d)) s t ∧
      pzShares d.toNat t = (mAdd sch (pxShares d.toNat s) (pyShares d.toNat s) s.got).1 ∧
      xorAll (pzShares d.toNat t) = xorAll (pxShares d.toNat s) + xorAll (pyShares d.toNat s) ∧
      (∀ k : Fin 16, d.toNat ≤ k.val → t.pz[k] = s.pz[k]) ∧ t.sh = s.sh ∧ t.px = s.px ∧ t.py = s.py := by
  have ⟨_, hwf, _⟩ := h
  have hw : Instr.wfScheme s.cfg.dmax d sch = true := wellFormed_maddOf .. ▸ hwf
  have hX : (pxShares d.toNat s).length = d.toNat := pxShares_length_of_le (wfScheme_bounds s.cfg hw).2
  obtain ⟨t, hexec, hdone, hpz, hframe⟩ :=
    exec_shares (.inl ⟨d, rfl, .inr ⟨sch, rfl⟩⟩) h (by rw [resultOf_maddOf]; rfl) (maddShares_length s.cfg s s.got hw)
  refine ⟨t, hexec, hdone, hpz, ?_, hframe⟩
  rw [hpz, mAdd_xorAll sch s.got (by simp) (hX.symm ▸ schemeFits_of_wf s.cfg hw)]

end Commands

end Sys2Proof.Machine

/-! ### The statements -/

namespace Sys2Proof.Proofs

open Sys2Proof.Machine

/-- Settles O19: the model's definitions are the formulas; the value forms are the bitwise ring laws. -/
theorem koggeStonePrimitivesHaveValueForms : Obligations.KoggeStonePrimitivesHaveValueForms :=
  ⟨fun _ _ _ => rfl, fun x y s t u => ⟨rfl, secAnd5_eq x y s t u⟩, fun x s t j => ⟨rfl, secShift_eq x s t j⟩⟩

/-- Settles O20: every accepted order is one its scheme adds at, and there each adder meets the contract. -/
theorem everyAdderRecombinesToTheSum : Obligations.EveryAdderRecombinesToTheSum := by
  intro c sch d X Y ws hd hX hY
  have hXY : Y.length = X.length := hY.trans hX.symm
  have hf : schemeFits X.length sch := hX.symm ▸ schemeFits_of_wf c hd
  exact ⟨(mAdd_length sch X Y ws hXY hf).trans hX, mAdd_xorAll sch ws hXY hf⟩

/-- Settles O21: each rule's draws, summed over its loop. -/
theorem drawsConsumedAreTheCounts : Obligations.DrawsConsumedAreTheCounts := by
  intro c sch d ws
  refine ⟨fun X Y hX hY => ?_, fun hd => ⟨fun X Y hX hY => ?_, fun nb n rows hrows => ?_⟩⟩
  · rw [secAndW, secAnd_rest, List.length_zip, hX, hY, Nat.min_self, secAndDraws]
  · rw [mAdd_rest sch ws (hY.trans hX.symm), hX]
  · exact (maskedPermute_length_rest (schemeFits_of_wf c hd) nb n ws hrows).2

/-- Settles O22: the shares written are the secure AND's. -/
theorem secandRecombinesToTheAnd : Obligations.SecandRecombinesToTheAnd := by
  intro d s h
  have ⟨_, hw, _⟩ := h
  obtain ⟨-, hd⟩ := wfOrder_bounds hw
  obtain ⟨-, h16⟩ := s.cfg.legal
  obtain ⟨t, hexec, hdone, hpz, hframe⟩ :=
    exec_shares (.inl ⟨d, rfl, .inl rfl⟩) h rfl (by simp [secAndW_length]; omega)
  refine ⟨t, hexec, hdone, ?_, hframe⟩
  rw [hpz, secAndW_xorAll (by simp)]

/-- Settles O23: the contract of O20 for the boolean adder. -/
theorem maddBoolRecombinesToTheSum : Obligations.MaddBoolRecombinesToTheSum := by
  intro d s h
  obtain ⟨t, hexec, hdone, -, hsum, hframe⟩ := exec_madd .bool h
  exact ⟨t, hexec, hdone, hsum, hframe⟩

/-- Settles O24: the scheme accepts d = 2 only, where ConvAdd has its closed form. -/
theorem maddConvClosedForm : Obligations.MaddConvClosedForm := by
  intro d s h
  have ⟨_, hw, _⟩ := h
  obtain rfl : d = 2#5 := of_decide_eq_true hw
  exact exec_madd_pair (sch := .conv) h (convAddShares_pair ..)

/-- Settles O25: d = 2, where GoubinAdd has its closed form in the first RNG word. -/
theorem maddGoubinClosedForm : Obligations.MaddGoubinClosedForm := by
  intro d s c ws h hgot
  have ⟨_, hw, _⟩ := h
  obtain rfl : d = 2#5 := of_decide_eq_true hw
  obtain ⟨t, hexec, hdone, hz0, hz1, hframe⟩ :=
    exec_madd_pair (sch := .goubin) h (goubinAddShares_pair ..)
  rw [hgot, List.headD_cons] at hz0 hz1
  exact ⟨t, hexec, hdone, hz1, hz1 ▸ hz0, hframe⟩

/-- Settles O26: d = 2, where KSAdd has its closed form. -/
theorem maddKsClosedForm : Obligations.MaddKsClosedForm := by
  intro d s h
  have ⟨_, hw, _⟩ := h
  obtain rfl : d = 2#5 := of_decide_eq_true hw
  exact exec_madd_pair (sch := .ks) h (ksAddShares_pair ..)

/-- Settles O27: the contract of O20, and the shares of GoubinAdd at d = 2 and of the draws above. -/
theorem maddHoRecombinesToTheSum : Obligations.MaddHoRecombinesToTheSum := by
  intro d s h
  obtain ⟨t, hexec, hdone, hpz, hsum, hframe⟩ := exec_madd .ho h
  refine ⟨t, hexec, hdone, hsum, fun htwo => ?_, fun hfour k hk hkd => ?_, hframe⟩
  · obtain rfl : d = 2#5 := BitVec.eq_of_toNat_eq htwo
    rw [htwo, pzShares, pxShares, pyShares, toList_take_two, toList_take_two, toList_take_two] at hpz
    have hpair := hpz.trans (goubinAddShares_pair ..)
    rw [List.cons.injEq, List.cons.injEq] at hpair
    obtain ⟨-, hz1, -⟩ := hpair
    exact hz1
  · obtain ⟨-, hw, hgot⟩ := h
    rw [draws, adderDraws, if_neg (by omega)] at hgot
    obtain ⟨-, hd⟩ := wfScheme_bounds (sch := .ho) s.cfg hw
    have hlen := pxShares_length_of_le hd
    rw [pz_eq_getD hkd, hpz, mAdd, hoAdd_draws (by omega) (hlen.symm ▸ hgot), hlen]
    exact getD_cons_take (by omega) (by omega)

/-- Settles O28: the conversion's value is the same for every draw. -/
theorem b2aClosedForm : Obligations.B2aClosedForm := by
  intro s h
  refine exec_pair (.inr ⟨rfl, .inl rfl⟩) h ?_
  rw [resultOf, convertResult, b2a_eq]

/-- Settles O29: the conversion's value is the same for every draw. -/
theorem a2bClosedForm : Obligations.A2bClosedForm := by
  intro s h
  refine exec_pair (.inr ⟨rfl, .inr rfl⟩) h ?_
  rw [resultOf, convertResult, a2b_eq]

/-- Settles O30: by the closed forms, the mask is taken off and put back on. -/
theorem b2aThenA2bIsIdentity : Obligations.B2aThenA2bIsIdentity := by
  intro x r g g'
  rw [b2a_eq, a2b_eq, BitVec.sub_add_cancel, xor_cancel_right]

end Sys2Proof.Proofs
end

section
/-! SUPPORT. Proofs of the statements of 42_masked_permutation.md: the linear layer (R145), MASK and UNMASK (R140-R142),
and the masked permutation on the value it stands for (R143-R153). -/

namespace Sys2Proof.Machine

/-! ### The value of a masked state, word by word (42_masked_permutation.md R140) -/

theorem getD_xorRows {n w : Nat} (hw : w < n) (rows : List (List Word)) :
    (xorRows n rows).getD w 0#32 = xorAll (rows.map (·.getD w 0#32)) := by
  simp [xorRows, hw]

/-- The value of a masked state is read off its first d rows' first words. -/
theorem maskedWord_eq_getD {n : Nat} {w : Fin 16} (hw : w.val < n) (d : Nat) (s : State) :
    maskedWord d s w = (xorRows n (shareRows d n s)).getD w.val 0#32 := by
  rw [getD_xorRows hw, shareRows, maskedWord, List.map_map]
  congr 2
  funext r
  simp [hw]

theorem ofFn_maskedWord_take (d : Nat) {n : Nat} (hn : n ≤ 16) (s : State) :
    (List.ofFn (maskedWord d s)).take n = xorRows n (shareRows d n s) := by
  refine List.ext_getElem (by simp [hn]) fun w hw _ => ?_
  obtain ⟨hwn, hw16⟩ : w < n ∧ w < 16 := by simpa using hw
  rw [List.getElem_take, List.getElem_ofFn, maskedWord_eq_getD hwn]
  simp [hwn]

/-- Rows written are the rows read back. -/
theorem shareRows_setShareRows {d n : Nat} {rows : List (List Word)} (h : Shape d n rows) (hd : d ≤ 16) (hn : n ≤ 16)
    (s : State) : shareRows d n (setShareRows rows s) = rows := by
  obtain ⟨hlen, hrows⟩ := h
  refine List.ext_getElem (by simp [hlen, hd]) fun k hk hk' => ?_
  have hrow : rows[k].length = n := hrows _ (List.getElem_mem hk')
  refine List.ext_getElem (by simp [shareRows, hrow, hn]) fun w hw hw' => ?_
  have hcell := setShareRows_sh_getElem rows s k w (by omega) (by omega)
  rw [dif_pos hk', dif_pos hw'] at hcell
  simpa [shareRows] using hcell

/-- The value of the masked state whose rows have been written. -/
theorem maskedWord_setShareRows {d n : Nat} {rows : List (List Word)} (h : Shape d n rows) (hd : d ≤ 16) (hn : n ≤ 16)
    {w : Fin 16} (hw : w.val < n) (s : State) :
    maskedWord d (setShareRows rows s) w = (xorRows n rows).getD w.val 0#32 := by
  rw [maskedWord_eq_getD hw, shareRows_setShareRows h hd hn]

theorem maskedWord_congr {s t : State} (h : s.sh = t.sh) (d : Nat) (w : Fin 16) :
    maskedWord d s w = maskedWord d t w := by
  rw [maskedWord, maskedWord, h]

/-! ### MASK and UNMASK (42_masked_permutation.md R141, R142) -/

theorem getD_randMany {n w : Nat} (hw : w < n) (ws : List Word) : (randMany n ws).1.getD w 0#32 = ws.getD w 0#32 := by
  induction n generalizing w ws with
  | zero => omega
  | succ n ih =>
    cases w with
    | zero => cases ws <;> simp [randMany, rand32]
    | succ w => rw [randMany, List.getD_cons_succ, ih (by omega)]; cases ws <;> simp [rand32]

/-- The fresh rows are the draws, rows and words ascending. -/
theorem getD_randRows {len n k w : Nat} (hk : k < n) (hw : w < len) (ws : List Word) :
    ((randRows len n ws).1.getD k []).getD w 0#32 = ws.getD (k * len + w) 0#32 := by
  induction n generalizing k ws with
  | zero => omega
  | succ n ih =>
    cases k with
    | zero => rw [randRows, List.getD_cons_zero, getD_randMany hw, Nat.zero_mul, Nat.zero_add]
    | succ k =>
      rw [randRows, List.getD_cons_succ, ih (by omega), randMany_rest, Nat.succ_mul]
      simp [List.getD_eq_getElem?_getD, Nat.add_comm, Nat.add_left_comm]

section Masking

variable {nb : BitVec 2} {d : BitVec 5}

/-- The rows MASK writes. -/
def maskRows (nb : BitVec 2) (d : BitVec 5) (ws : List Word) (s : State) : List (List Word) :=
  xorRows (rowLen nb) (shareRows 1 (rowLen nb) s ++ (randRows (rowLen nb) (d.toNat - 1) ws).1) ::
    (randRows (rowLen nb) (d.toNat - 1) ws).1

theorem resultOf_mask (nb : BitVec 2) (d : BitVec 5) (ws : List Word) (s : State) :
    resultOf (.mask nb d) ws s = setShareRows (maskRows nb d ws s) s := rfl

theorem maskRows_shape (hd : 1 ≤ d.toNat) (ws : List Word) (s : State) :
    Shape d.toNat (rowLen nb) (maskRows nb d ws s) :=
  (randRows_shape _ _ ws).cons (xorRows_length _ _) hd

/-- Row 0 holds the old row and every fresh row, so the fresh rows cancel. -/
theorem getD_xorRows_maskRows {w : Fin 16} (hw : w.val < rowLen nb) (ws : List Word) (s : State) :
    (xorRows (rowLen nb) (maskRows nb d ws s)).getD w.val 0#32 = s.sh[0][w] := by
  rw [getD_xorRows hw, maskRows, List.map_cons, xorAll_cons, getD_xorRows hw, List.map_append, xorAll_append,
    xor_cancel_right, shareRows_one]
  simp [hw]

/-- The rows UNMASK writes. -/
def unmaskRows (nb : BitVec 2) (d : BitVec 5) (s : State) : List (List Word) :=
  xorRows (rowLen nb) (shareRows d.toNat (rowLen nb) s) ::
    List.replicate (d.toNat - 1) (List.replicate (rowLen nb) 0#32)

theorem resultOf_unmask (nb : BitVec 2) (d : BitVec 5) (ws : List Word) (s : State) :
    resultOf (.unmask nb d) ws s = setShareRows (unmaskRows nb d s) s := rfl

theorem unmaskRows_shape (hd : 1 ≤ d.toNat) (s : State) : Shape d.toNat (rowLen nb) (unmaskRows nb d s) :=
  Shape.cons (xorRows_length _ _)
    ⟨List.length_replicate, fun r hr => by rw [List.eq_of_mem_replicate hr, List.length_replicate]⟩ hd

end Masking

/-! ### The branch-wise XOR of states, and the linear layer (42_masked_permutation.md R145) -/

/-- The XOR of two branches. -/
def xorBranch (a b : Branch) : Branch := ⟨a.x ^^^ b.x, a.y ^^^ b.y⟩

/-- The branch-wise XOR of two states. -/
def xorState (S T : List Branch) : List Branch := List.zipWith xorBranch S T

/-- The state of n branches that is 0. -/
def zeroState (n : Nat) : List Branch := List.replicate n ⟨0#32, 0#32⟩

@[simp] theorem xorState_length (S T : List Branch) : (xorState S T).length = min S.length T.length :=
  List.length_zipWith

theorem xorState_self (S : List Branch) : xorState S S = zeroState S.length := by
  simp [xorState, zeroState, List.zipWith_self, xorBranch, List.map_const']

theorem branchAt_xorState {S T : List Branch} (hlen : S.length = T.length) (k : Nat) :
    branchAt (xorState S T) k = xorBranch (branchAt S k) (branchAt T k) := by
  obtain hk | hk := Nat.lt_or_ge k S.length
  · simp [xorState, branchAt, hk, hlen ▸ hk]
  · simp [xorState, branchAt, hk, hlen ▸ hk, xorBranch]

/-- A word of the branches that XOR acts on, summed over the branches. -/
theorem xorAll_map_xorState {p : Branch → Word} (hp : ∀ a b, p (xorBranch a b) = p a ^^^ p b) {S T : List Branch}
    (hlen : S.length = T.length) : xorAll ((xorState S T).map p) = xorAll (S.map p) ^^^ xorAll (T.map p) := by
  rw [← xorAll_xorShares _ _ (by simpa using hlen), xorShares, List.zipWith_map, xorState, List.map_zipWith]
  simp only [hp]

theorem ell_xor (a b : Word) : ell (a ^^^ b) = ell a ^^^ ell b := by
  have hinner : (a ^^^ b) ^^^ ((a ^^^ b) <<< 16) = (a ^^^ (a <<< 16)) ^^^ (b ^^^ (b <<< 16)) := by
    rw [BitVec.shiftLeft_xor_distrib]
    generalize a <<< 16 = p, b <<< 16 = q
    ac_rfl
  rw [ell, hinner, rotr_xor, ell, ell]

/-- Every new branch is an XOR of old branches and of ell terms, and ell is linear. -/
theorem linear_xorState {S T : List Branch} (hlen : S.length = T.length) :
    linear (xorState S T) = xorState (linear S) (linear T) := by
  have htake : (xorState S T).take (S.length / 2) = xorState (S.take (S.length / 2)) (T.take (S.length / 2)) :=
    List.take_zipWith
  have hhalf : (S.take (S.length / 2)).length = (T.take (S.length / 2)).length := by simp [hlen]
  have hx := xorAll_map_xorState (p := (·.x)) (fun _ _ => rfl) hhalf
  have hy := xorAll_map_xorState (p := (·.y)) (fun _ _ => rfl) hhalf
  simp only [linear, xorState_length, ← hlen, Nat.min_self, htake, hx, hy, ell_xor, branchAt_xorState hlen]
  rw [xorState, xorState, List.zipWith_append (by simp), List.zipWith_map, List.zipWith_self]
  congr 2
  funext i
  simp only [xorBranch, Branch.mk.injEq]
  constructor <;> ac_rfl

theorem linear_zeroState {n : Nat} (hn : n % 2 = 0) : linear (zeroState n) = zeroState n := by
  have hzero : xorState (zeroState n) (zeroState n) = zeroState n := by
    simp [xorState_self, zeroState]
  rw [← hzero, linear_xorState rfl, xorState_self, linear_length _ (by simpa [zeroState] using hn), hzero]
  simp [zeroState]

/-! ### The state that masked rows stand for (42_masked_permutation.md R140) -/

/-- The branch that a shared x and a shared y stand for. -/
def sharedBranch (X Y : List Word) : Branch := ⟨xorAll X, xorAll Y⟩

/-- The branch that a column of shares stands for. -/
def branchValue (col : List Branch) : Branch := sharedBranch (col.map (·.x)) (col.map (·.y))

/-- The state of n branches that masked rows stand for. -/
def stateValue (n : Nat) (rows : List (List Branch)) : List Branch :=
  (List.range n).map fun b => branchValue (column rows b)

@[simp] theorem stateValue_length (n : Nat) (rows : List (List Branch)) : (stateValue n rows).length = n := by
  simp [stateValue]

theorem branchAt_stateValue {n b : Nat} (hb : b < n) (rows : List (List Branch)) :
    branchAt (stateValue n rows) b = branchValue (column rows b) := by
  simp [stateValue, branchAt, hb]

@[simp] theorem stateValue_nil (n : Nat) : stateValue n [] = zeroState n := by
  simp [stateValue, zeroState, column, branchValue, sharedBranch, List.map_const']

theorem stateValue_cons {n : Nat} {row : List Branch} (hrow : row.length = n) (rows : List (List Branch)) :
    stateValue n (row :: rows) = xorState row (stateValue n rows) := by
  refine ext_branchAt (by simp [hrow]) fun b hb => ?_
  have hbn : b < n := by simpa using hb
  rw [branchAt_xorState (by simpa using hrow), branchAt_stateValue hbn, branchAt_stateValue hbn]
  rfl

theorem Shape.tail {α : Type} {d n : Nat} {row : List α} {rows : List (List α)} (h : Shape d n (row :: rows)) :
    row.length = n ∧ Shape (d - 1) n rows := by
  obtain ⟨hlen, hrows⟩ := h
  obtain ⟨hrow, hrest⟩ := List.forall_mem_cons.mp hrows
  exact ⟨hrow, by rw [← hlen, List.length_cons, Nat.add_sub_cancel], hrest⟩

/-- The linear layer may be applied row by row. -/
theorem stateValue_map_linear {d n : Nat} (hn : n % 2 = 0) {rows : List (List Branch)} (h : Shape d n rows) :
    stateValue n (rows.map linear) = linear (stateValue n rows) := by
  induction rows generalizing d with
  | nil => rw [List.map_nil, stateValue_nil, linear_zeroState hn]
  | cons row rows ih =>
    obtain ⟨hrow, hrest⟩ := h.tail
    rw [List.map_cons, stateValue_cons (by rw [linear_length _ (hrow ▸ hn), hrow]), ih hrest, stateValue_cons hrow,
      linear_xorState (by simpa using hrow)]

/-! ### The state's words (10_state.md R22) -/

theorem ofBranches_xorState {S T : List Branch} (hlen : S.length = T.length) :
    ofBranches (xorState S T) = xorShares (ofBranches S) (ofBranches T) := by
  induction S generalizing T with
  | nil => rfl
  | cons a S ih =>
    obtain ⟨b, T, rfl⟩ := List.exists_cons_of_length_eq_add_one hlen.symm
    have htail := ih (T := T) (by simpa using hlen)
    simp only [xorState, xorShares, ofBranches, List.zipWith_cons_cons] at htail ⊢
    rw [htail]
    rfl

theorem ofBranches_zeroState (n : Nat) : ofBranches (zeroState n) = List.replicate (2 * n) 0#32 := by
  induction n with
  | zero => rfl
  | succ n ih => rw [zeroState, List.replicate_succ, ofBranches, ← zeroState, ih]; rfl

theorem xorRows_nil (n : Nat) : xorRows n [] = List.replicate n 0#32 := by
  simp [xorRows, List.map_const']

theorem xorRows_cons {n : Nat} {row : List Word} (hrow : row.length = n) (rows : List (List Word)) :
    xorRows n (row :: rows) = xorShares row (xorRows n rows) := by
  refine List.ext_getElem (by simp [hrow]) fun w hw _ => ?_
  have hwrow : w < row.length := by simpa [hrow] using hw
  simp [xorRows, xorShares, hwrow]

/-- The words of the state that masked rows stand for are the XOR of the rows' words. -/
theorem xorRows_map_ofBranches {d n : Nat} {rows : List (List Branch)} (h : Shape d n rows) :
    xorRows (2 * n) (rows.map ofBranches) = ofBranches (stateValue n rows) := by
  induction rows generalizing d with
  | nil => rw [List.map_nil, xorRows_nil, stateValue_nil, ofBranches_zeroState]
  | cons row rows ih =>
    obtain ⟨hrow, hrest⟩ := h.tail
    rw [List.map_cons, xorRows_cons (by rw [ofBranches_length, hrow]), ih hrest, stateValue_cons hrow,
      ofBranches_xorState (by simpa using hrow)]

theorem toBranches_xorRows {d n : Nat} {rows : List (List Word)} (h : Shape d (2 * n) rows) :
    toBranches (xorRows (2 * n) rows) = stateValue n (rows.map toBranches) := by
  have hback : (rows.map toBranches).map ofBranches = rows := by
    obtain ⟨-, hrows⟩ := h
    rw [List.map_map]
    exact (List.map_congr_left fun r hr => ofBranches_toBranches n r (hrows r hr)).trans (List.map_id' rows)
  have hwords := xorRows_map_ofBranches (h.map toBranches fun r hr => toBranches_length n r hr)
  rw [hback] at hwords
  rw [hwords, toBranches_ofBranches]

/-! ### The masked round on the value (42_masked_permutation.md R143, R144, R146) -/

theorem constAdd_xorState (i : Nat) {S T : List Branch} (hlen : S.length = T.length) :
    constAdd i (xorState S T) = xorState (constAdd i S) T := by
  match S, T, hlen with
  | [], [], _ => rfl
  | [_], [_], _ => rfl
  | a0 :: a1 :: S, b0 :: b1 :: T, _ =>
    simp only [xorState, constAdd, List.zipWith_cons_cons, xorBranch, List.cons.injEq, Branch.mk.injEq, and_true,
      true_and]
    constructor <;> ac_rfl

/-- The constants enter one share, so they enter the value once. -/
theorem stateValue_maskedConstAdd {d n : Nat} (i : Nat) (hd : 1 ≤ d) {rows : List (List Branch)} (h : Shape d n rows) :
    stateValue n (maskedConstAdd i rows) = constAdd i (stateValue n rows) := by
  cases rows with
  | nil =>
    obtain ⟨hlen, -⟩ := h
    exact absurd hlen.symm (by simpa using Nat.ne_of_gt hd)
  | cons row rows =>
    obtain ⟨hrow, -⟩ := h.tail
    rw [maskedConstAdd, stateValue_cons (by simpa using hrow), stateValue_cons hrow,
      constAdd_xorState i (by simpa using hrow)]

theorem xorAll_xorHead (rc : Word) {X : List Word} (hX : 1 ≤ X.length) : xorAll (xorHead rc X) = xorAll X ^^^ rc := by
  cases X with
  | nil => simp at hX
  | cons x X => simp only [xorHead, xorAll_cons]; ac_rfl

theorem branchValue_zipWith_mk {X Y : List Word} (hlen : X.length = Y.length) :
    branchValue (List.zipWith Branch.mk X Y) = sharedBranch X Y := by
  have hx := List.map_fst_zip hlen.le
  have hy := List.map_snd_zip hlen.ge
  rw [List.zip, List.map_zipWith] at hx hy
  simp only [branchValue, List.map_zipWith, hx, hy]

theorem branchAt_arxLayer {S : List Branch} (h8 : S.length ≤ 8) {k : Nat} (hk : k < S.length) :
    branchAt (arxLayer S) k = alzette (branchAt S k) (rconAt k) := by
  have hk8 : k < rcon.length := hk.trans_le h8
  rw [branchAt_eq_getElem (by rw [arxLayer_length S h8]; exact hk), branchAt_eq_getElem hk, rconAt,
    List.getD_eq_getElem _ _ hk8]
  exact List.getElem_zipWith

theorem column_setColumn_same {d n b : Nat} (hb : b < n) {rows : List (List Branch)} (h : Shape d n rows)
    {col : List Branch} (hcol : col.length = d) : column (setColumn rows b col) b = col := by
  obtain ⟨hlen, hrows⟩ := h
  refine List.ext_getElem (by simp [column, setColumn, hlen, hcol]) fun k hk hk' => ?_
  have hrow : rows[k].length = n := hrows _ (List.getElem_mem _)
  simp [column, setColumn, branchAt, hrow, hb]

theorem column_setColumn_ne {k b : Nat} (hk : k ≠ b) (rows : List (List Branch)) {col : List Branch}
    (hcol : col.length = rows.length) : column (setColumn rows b col) k = column rows k := by
  refine List.ext_getElem (by simp [column, setColumn, hcol]) fun j hj hj' => ?_
  simp [column, setColumn, branchAt, List.getD_eq_getElem?_getD, List.getElem?_set_ne hk.symm]

section Shares

variable {sch : Scheme} {d : Nat} (hf : schemeFits d sch) (hd : 1 ≤ d)

include hf hd

/-- A masked Alzette step: the adder adds the values, and rotation is linear. -/
theorem mAlzetteStep_value (rc : Word) {st : (List Word × List Word) × List Word} (sh : Nat × Nat)
    (hX : st.1.1.length = d) (hY : st.1.2.length = d) :
    sharedBranch (mAlzetteStep sch rc st sh).1.1 (mAlzetteStep sch rc st sh).1.2 =
      alzetteStep rc (sharedBranch st.1.1 st.1.2) sh := by
  obtain ⟨⟨X, Y⟩, ws⟩ := st
  dsimp only at hX hY ⊢
  have hfX : schemeFits X.length sch := hX.symm ▸ hf
  have hrot : (Y.map (rotr · sh.1)).length = X.length := by simp [hX, hY]
  have hlen := mAdd_length sch X _ ws hrot hfX
  have hsum : xorAll (mAdd sch X (Y.map (rotr · sh.1)) ws).1 = xorAll X + rotr (xorAll Y) sh.1 := by
    rw [mAdd_xorAll sch ws hrot hfX, xorAll_map_linear (by simp [rotr]) (rotr_xor · · sh.1)]
  simp only [mAlzetteStep, sharedBranch, alzetteStep, ← hsum, Branch.mk.injEq]
  refine ⟨xorAll_xorHead rc (by omega), ?_⟩
  refine xorAll_zipWith_linear (f := fun y x => y ^^^ rotr x sh.2) (by simp [rotr]) (fun y y' x x' => ?_) (by omega)
  rw [rotr_xor]
  ac_rfl

theorem mAlzetteFold_value (rc : Word) (shs : List (Nat × Nat)) {st : (List Word × List Word) × List Word}
    (hX : st.1.1.length = d) (hY : st.1.2.length = d) :
    sharedBranch (shs.foldl (mAlzetteStep sch rc) st).1.1 (shs.foldl (mAlzetteStep sch rc) st).1.2 =
      shs.foldl (alzetteStep rc) (sharedBranch st.1.1 st.1.2) := by
  induction shs generalizing st with
  | nil => rfl
  | cons sh shs ih =>
    obtain ⟨hX', hY'⟩ := mAlzetteStep_lengths sch rc st sh d hX hY hf
    rw [List.foldl_cons, ih hX' hY', mAlzetteStep_value hf hd rc sh hX hY, List.foldl_cons]

theorem branchValue_mAlzette (rc : Word) {col : List Branch} (hcol : col.length = d) (ws : List Word) :
    branchValue (mAlzette sch rc col ws).1 = alzette (branchValue col) rc := by
  have hx : (col.map (·.x)).length = d := by simpa using hcol
  have hy : (col.map (·.y)).length = d := by simpa using hcol
  obtain ⟨hX, hY⟩ := mAlzetteFold_lengths sch rc alzetteShifts d hf ((col.map (·.x), col.map (·.y)), ws) hx hy
  have hvalue := mAlzetteFold_value hf hd rc alzetteShifts (st := ((col.map (·.x), col.map (·.y)), ws)) hx hy
  rw [mAlzette, branchValue_zipWith_mk (hX.trans hY.symm), hvalue, alzette, branchValue]

/-- The masked ARX layer on the branches listed leaves the other branches alone. -/
theorem branchValue_column_maskedArx {n : Nat} {bs : List Nat} (hnodup : bs.Nodup) (hbs : ∀ b ∈ bs, b < n)
    {rows : List (List Branch)} (h : Shape d n rows) (ws : List Word) (k : Nat) :
    branchValue (column (maskedArx sch bs rows ws).1 k) =
      if k ∈ bs then alzette (branchValue (column rows k)) (rconAt k) else branchValue (column rows k) := by
  induction bs generalizing rows ws with
  | nil => rfl
  | cons b bs ih =>
    obtain ⟨hb, hnodup'⟩ := List.nodup_cons.mp hnodup
    obtain ⟨hbn, hbs'⟩ := List.forall_mem_cons.mp hbs
    have ⟨hlen, _⟩ := h
    have hcol : (column rows b).length = d := by simpa [column] using hlen
    have hnew : (mAlzette sch (rconAt b) (column rows b) ws).1.length = d := by
      rw [mAlzette_length _ _ _ _ (hcol.symm ▸ hf), hcol]
    rw [maskedArx, ih hnodup' hbs' (setColumn_shape b _ h hnew)]
    by_cases hk : k = b
    · subst hk
      rw [if_neg hb, if_pos List.mem_cons_self, column_setColumn_same hbn h hnew,
        branchValue_mAlzette hf hd _ hcol]
    · simp only [column_setColumn_ne hk _ (hnew.trans hlen.symm), List.mem_cons, hk, false_or]

theorem stateValue_maskedArx {n : Nat} (h8 : n ≤ 8) {rows : List (List Branch)} (h : Shape d n rows) (ws : List Word) :
    stateValue n (maskedArx sch (List.range n) rows ws).1 = arxLayer (stateValue n rows) := by
  have hlen : (arxLayer (stateValue n rows)).length = n := by
    rw [arxLayer_length _ (by simpa using h8), stateValue_length]
  refine ext_branchAt (by rw [stateValue_length, hlen]) fun k hk => ?_
  have hkn : k < n := by simpa using hk
  rw [branchAt_stateValue hkn, branchValue_column_maskedArx hf hd List.nodup_range (by simp) h,
    if_pos (List.mem_range.mpr hkn), branchAt_arxLayer (by simpa using h8) (by simpa using hkn),
    branchAt_stateValue hkn]

theorem stateValue_maskedRound {n : Nat} (h8 : n ≤ 8) (h2 : n % 2 = 0) (i : Nat) {st : List (List Branch) × List Word}
    (h : Shape d n st.1) : stateValue n (maskedRound sch n st i).1 = round (stateValue n st.1) i := by
  have hconst := maskedConstAdd_shape i h
  rw [maskedRound, stateValue_map_linear h2 (maskedArx_shape sch _ hf st.2 hconst),
    stateValue_maskedArx hf hd h8 hconst, stateValue_maskedConstAdd i hd h, round]

/-- The masked permutation is Permute on the value, whatever the draws (42_masked_permutation.md R153). -/
theorem stateValue_maskedPermute {n : Nat} (h8 : n ≤ 8) (h2 : n % 2 = 0) (m : Nat) {rows : List (List Branch)}
    (h : Shape d n rows) (ws : List Word) :
    stateValue n (maskedPermute sch n m rows ws).1 = permute m (stateValue n rows) := by
  induction m with
  | zero => rfl
  | succ m ih =>
    rw [maskedPermute_succ, stateValue_maskedRound hf hd h8 h2 m (maskedPermute_shape sch n m hf h2 ws h), ih,
      permute_succ]

/-- The masked permutation is Permute on the XOR of the rows' words. -/
theorem xorRows_maskedPermute {nb : BitVec 2} (m : Nat) {rows : List (List Word)} (h : Shape d (rowLen nb) rows)
    (ws : List Word) :
    xorRows (rowLen nb) ((maskedPermute sch (branches nb) m (rows.map toBranches) ws).1.map ofBranches) =
      permuteWords m (xorRows (rowLen nb) rows) := by
  obtain ⟨h8, h2⟩ := branches_shape nb
  have hrows : Shape d (branches nb) (rows.map toBranches) := h.map _ fun r hr => toBranches_length _ r hr
  rw [permuteWords, rowLen, toBranches_xorRows h, ← stateValue_maskedPermute hf hd h8 h2 m hrows ws]
  exact xorRows_map_ofBranches (maskedPermute_shape sch _ m hf h2 ws hrows)

end Shares

theorem draws_mpermuteOf (sch : Scheme) (nb : BitVec 2) (full : Bool) (d : BitVec 5) :
    draws (mpermuteOf sch nb full d) = mpermuteDraws nb full d.toNat sch := by
  cases sch <;> rfl

end Sys2Proof.Machine

/-! ### The statements -/

namespace Sys2Proof.Proofs

open Sys2Proof.Machine

/-- Settles O17: each output branch is an XOR of input branches and of the linear ell. -/
theorem linearLayerIsLinear : Obligations.LinearLayerIsLinear := fun _ _ => linear_xorState

/-- Settles O31: the fresh rows are the draws, and they cancel in the value. -/
theorem maskSplitsRowZero : Obligations.MaskSplitsRowZero := by
  intro nb d s h
  have ⟨_, hwf, _⟩ := h
  obtain ⟨hd1, hdmax⟩ := WritesRows.bounds s.cfg (.inr ⟨d, rfl, .inl rfl⟩) hwf
  have hd16 := hdmax.trans s.cfg.legal.2
  obtain ⟨t, hexec, hdone, hsh, -⟩ := exec_ready h
  obtain ⟨hpx, hpy, hpz, hframe⟩ :=
    shareCommandsWriteOnlyTheirRows _ nb d.toNat s t (.inr ⟨d, rfl, .inl rfl⟩) hexec
  have hrows := maskRows_shape (nb := nb) hd1 s.got s
  refine ⟨t, hexec, hdone, fun k w hk hkd hw => ?_, fun w hw => ?_, hframe, hpx, hpy, hpz⟩
  · obtain ⟨j, hj⟩ := Nat.exists_eq_add_of_le' hk
    rw [hsh, resultOf_mask, setShareRows_sh_of_lt hrows hkd hw, maskRows, hj, List.getD_cons_succ,
      getD_randRows (by omega) hw, Nat.add_sub_cancel]
  · rw [maskedWord_congr hsh, resultOf_mask, maskedWord_setShareRows hrows hd16 (rowLen_le nb) hw,
      getD_xorRows_maskRows hw]

/-- Settles O32: row 0 is written with the value, the rows after it with zeros. -/
theorem unmaskRecombinesIntoRowZero : Obligations.UnmaskRecombinesIntoRowZero := by
  intro nb d s h
  have ⟨_, hwf, _⟩ := h
  obtain ⟨hd1, -⟩ := WritesRows.bounds s.cfg (.inr ⟨d, rfl, .inr (.inl rfl)⟩) hwf
  obtain ⟨t, hexec, hdone, hsh, -⟩ := exec_ready h
  obtain ⟨hpx, hpy, hpz, hframe⟩ :=
    shareCommandsWriteOnlyTheirRows _ nb d.toNat s t (.inr ⟨d, rfl, .inr (.inl rfl)⟩) hexec
  have hrows := unmaskRows_shape (nb := nb) hd1 s
  refine ⟨t, hexec, hdone, fun w hw => ?_, fun k w hk hkd hw => ?_, hframe, hpx, hpy, hpz⟩
  · rw [hsh, resultOf_unmask, maskedWord_eq_getD hw]
    exact setShareRows_sh_of_lt (k := 0) hrows hd1 hw s
  · obtain ⟨j, hj⟩ := Nat.exists_eq_add_of_le' hk
    rw [hsh, resultOf_unmask, setShareRows_sh_of_lt hrows hkd hw, unmaskRows, hj, List.getD_cons_succ,
      List.getD_replicate _ (by omega), List.getD_replicate _ hw]

/-- Settles O33: UNMASK gives the value of the share RAM (O32), which after MASK is the old row 0 (O31). -/
theorem maskThenUnmaskIsIdentity : Obligations.MaskThenUnmaskIsIdentity := by
  intro nb d s t u hs hmask hu hsh
  obtain ⟨t', hmask', -, -, hvalue, -⟩ := maskSplitsRowZero nb d s hs
  obtain rfl : t' = t := Host.Outcome.next.inj (hmask'.symm.trans hmask)
  obtain ⟨v, hunmask, -, hzero, hclear, -⟩ := unmaskRecombinesIntoRowZero nb d u hu
  exact ⟨v, hunmask, fun w hw => by rw [hzero w hw, maskedWord_congr hsh, hvalue w hw], hclear⟩

/-- Settles O34: each round of the masked permutation is a round on the value, whatever the draws. -/
theorem mpermuteComputesPermuteOnTheValue : Obligations.MpermuteComputesPermuteOnTheValue := by
  intro sch nb full d s h
  have ⟨_, hwf, _⟩ := h
  have hi : WritesRows (mpermuteOf sch nb full d) nb d.toNat := .inr ⟨d, rfl, .inr (.inr ⟨sch, full, rfl⟩)⟩
  obtain ⟨hd1, hdmax⟩ := hi.bounds s.cfg hwf
  have hd16 := hdmax.trans s.cfg.legal.2
  rw [wellFormed_mpermuteOf, Bool.and_eq_true] at hwf
  obtain ⟨-, hd⟩ := hwf
  obtain ⟨t, hexec, hdone, hsh, -⟩ := exec_ready h
  obtain ⟨hpx, hpy, hpz, hframe⟩ := shareCommandsWriteOnlyTheirRows _ nb d.toNat s t hi hexec
  rw [draws_mpermuteOf, mpermuteDraws] at hdone
  refine ⟨t, hexec, hdone, fun w hw => ?_, hframe, hpx, hpy, hpz⟩
  rw [maskedWord_congr hsh, resultOf_mpermuteOf, mpermuteResult,
    maskedWord_setShareRows (mpermuteRows_shape s.cfg nb _ s s.got hd) hd16 (rowLen_le nb) hw,
    xorRows_maskedPermute (schemeFits_of_wf s.cfg hd) hd1 _ (shareRows_shape _ _ s hd16 (rowLen_le nb)),
    ofFn_maskedWord_take _ (rowLen_le nb)]

end Sys2Proof.Proofs
end

section
/-! SUPPORT. Proofs of the statements of 60_exceptions.md: the examination of a CMD write (R161-R163), that no step
stops (R160, R164), bus errors (R165), the overrun (R166), acknowledgement (R167) and the interrupt (R168). -/

namespace Sys2Proof.Machine

/-! ### The examination of a command while idle (60_exceptions.md R162, R163) -/

/-- The state after an examination that found the error `r`, or none. -/
def examined (r : Option CmdError) (s : State) : State :=
  match r with
  | some c => reject c s
  | none => accept s

/-- The error a CMD write of `w` is rejected with: the decoder's, or else that of the checks on the command. -/
def rejection (dmax : Nat) (w : Word) : Option CmdError :=
  match decode w with
  | .ok i => check dmax i
  | .error c => some c

theorem exec_idle {s : State} (hb : s.status.busy = false) (i : Instr) :
    exec i s = .next (examined (check s.cfg.dmax i) s) := by
  rw [exec_eq]
  cases hc : check s.cfg.dmax i with
  | some c => exact runCommand_rejects hb hc
  | none => exact runCommand_accepts hb ((check_none s.cfg i).mp hc)

theorem writeCmd_busy (w : Word) {s : State} (hb : s.status.busy = true) :
    writeCmd w s = .next (respond .written (setOvr s)) := by
  simp [writeCmd, hb]

theorem writeCmd_of_decode {w : Word} {i : Instr} {s : State} (hb : s.status.busy = false) (hd : decode w = .ok i) :
    writeCmd w s = exec i (latch w s) := by
  simp [writeCmd, hb, hd]

theorem writeCmd_idle (w : Word) {s : State} (hb : s.status.busy = false) :
    writeCmd w s = .next (examined (rejection s.cfg.dmax w) (latch w s)) := by
  cases hd : decode w with
  | ok i =>
    rw [writeCmd_of_decode hb hd, rejection, hd]
    exact exec_idle (s := latch w s) hb i
  | error c =>
    rw [rejection, hd]
    simp [writeCmd, hb, hd, examined]

/-- A host write to CMD is one `writeCmd`. -/
theorem step_hostWr_cmd {s : State} {w : Word} {rest : List Event} (h : s.sched = hostWr 0x000 w :: rest) :
    step s = writeCmd w { s with sched := rest } := by
  rw [step_hostWr h]
  rfl

/-- A host write to STATUS is one acknowledgement. -/
theorem step_hostWr_status {s : State} {v : Word} {rest : List Event} (h : s.sched = hostWr 0x004 v :: rest) :
    step s = .next { s with sched := rest, resp := .written, status := acknowledge v s.status } := by
  rw [step_hostWr h]
  rfl

/-! ### The spec's check order is the model's (60_exceptions.md R161, R162) -/

theorem specAllowed_toNat (op : BitVec 4) : specAllowed op.toNat = allowed op := by
  revert op
  decide

/-- What the decoder rejects by its row is the scheme of a command that has one (30_encoding.md R63). -/
theorem decodeRow_error {w : Word} {c : CmdError} (hop : (opField w).toNat < 10) (h : decodeRow w = .error c) :
    c = .config ∧ ((opField w).toNat = 2 ∨ (opField w).toNat = 6) ∧ 5 ≤ (schemeField w).toNat := by
  unfold decodeRow at h
  split at h
  case h_3 hop2 =>
    unfold decodeMpermute at h
    split at h <;> cases h
    exact ⟨rfl, .inl hop2, by grind⟩
  case h_7 hop6 =>
    unfold decodeMadd at h
    split at h <;> cases h
    exact ⟨rfl, .inr hop6, by grind⟩
  case h_11 => grind
  all_goals cases h

/-- OP and the stray bits are checked in the same order; NB = 0b11 comes before SCHEME 5..7, with the same code. -/
theorem specReject_of_decode_error {dmax : Nat} {w : Word} {c : CmdError} (h : decode w = .error c) :
    specReject dmax w = some (errCode c).toNat := by
  unfold decode at h
  simp only [specReject, Nat.reducePow, ← opField_toNat, ← schemeField_toNat, specAllowed_toNat]
  split at h
  next hop =>
    obtain rfl := Except.error.inj h
    rw [if_pos hop]
    rfl
  next hop =>
    rw [if_neg hop]
    split at h
    next hstray =>
      obtain rfl := Except.error.inj h
      rw [if_pos hstray]
      rfl
    next hclean =>
      obtain ⟨rfl, hrow⟩ := decodeRow_error (by omega) h
      rw [if_neg hclean, if_pos hrow, ite_self]
      rfl

theorem orElse_ite_some {α : Type} (p : Prop) [Decidable p] (a : α) (x : Option α) :
    ((if p then some a else none) <|> x) = if p then some a else x := by
  split <;> rfl

theorem checkNb_eq (nb : BitVec 2) : checkNb nb = if nb.toNat = 3 then some .config else none := by
  revert nb
  decide

/-- The orders HO supports are the powers of two from 2 on (41_secure_adders.md R112). -/
theorem not_hoSupported_iff {d : Nat} (hd : 2 ≤ d) : ¬ hoSupported d = true ↔ ∀ k < 5, d ≠ 2 ^ k := by
  constructor
  · rintro h k hk rfl
    interval_cases k
    · omega
    all_goals exact h rfl
  · intro h
    have h2 := h 1 (by decide)
    have h4 := h 2 (by decide)
    have h8 := h 3 (by decide)
    have h16 := h 4 (by decide)
    simp only [hoSupported, Bool.or_eq_true, decide_eq_true_eq]
    omega

/-- A scheme's order check in the words of 60_exceptions.md R162. -/
theorem checkSchemeOrder_eq (dmax d : Nat) (sch : Scheme) :
    checkSchemeOrder dmax d sch =
      if d < 2 ∨ dmax < d then some .order
      else if sch ≠ .bool ∧ sch ≠ .ho ∧ d ≠ 2 then some .order
      else if sch = .ho ∧ ∀ k < 5, d ≠ 2 ^ k then some .notSupported
      else none := by
  cases sch
  case ho =>
    simp only [checkSchemeOrder, checkOrder, orElse_ite_some]
    split
    next => rfl
    next hd =>
      have hd2 : 2 ≤ d := by omega
      simp only [← not_hoSupported_iff hd2, ne_eq, not_true_eq_false, false_and, and_false, if_false, true_and,
        ite_not]
  all_goals simp [checkSchemeOrder, checkOrder, orElse_ite_some]

/-- A command's word has its fields and no stray bit, so that what is left are the checks on the fields' values. -/
theorem specReject_encode (dmax : Nat) (i : Instr) :
    specReject dmax (encode i) = (check dmax i).map fun c => (errCode c).toNat := by
  have hfields : fieldsOf (encode i) = i.fields := by rw [encode_eq_word, fieldsOf_word]
  obtain ⟨hbits, -⟩ := decode_eq_ok_iff.mp (decode_encode i)
  have hclean := (and_not_allowed_eq_zero_iff _).mpr hbits
  have hop : opField (encode i) = i.fields.op := congrArg Fields.op hfields
  have hnb : nbField (encode i) = i.fields.nb := congrArg Fields.nb hfields
  have hscheme : schemeField (encode i) = i.fields.scheme := congrArg Fields.scheme hfields
  have horder : orderField (encode i) = i.fields.order := congrArg Fields.order hfields
  simp only [specReject, Nat.reducePow, ← opField_toNat, ← nbField_toNat, ← schemeField_toNat, ← orderField_toNat,
    specAllowed_toNat, hclean]
  rw [hop, hnb, hscheme, horder]
  cases i <;>
    simp [Instr.fields, check, checkNb_eq, checkOrder, checkSchemeOrder_eq, orElse_ite_some,
      apply_ite (Option.map _), errCode]

/-- OnCmdWrite of 60_exceptions.md R162 rejects a word as the model does, with the same code. -/
theorem specReject_eq (dmax : Nat) (w : Word) :
    specReject dmax w = (rejection dmax w).map fun c => (errCode c).toNat := by
  cases hd : decode w with
  | ok i => rw [← encode_of_decode hd, specReject_encode, rejection, decode_encode]
  | error c => rw [specReject_of_decode_error hd, rejection, hd]; rfl

/-! ### The code of an ill-formed command (60_exceptions.md R161) -/

section Codes

variable {dmax d : Nat} {c : CmdError}

theorem checkNb_code {nb : BitVec 2} (h : checkNb nb = some c) : errCode c = 2#4 := by
  unfold checkNb at h
  split at h <;> cases h
  rfl

theorem checkNb_orElse_code {nb : BitVec 2} {x : Option CmdError} {code : BitVec 4}
    (hx : x = some c → errCode c = code) (h : (checkNb nb <|> x) = some c) :
    errCode c = if nb = 3#2 then 2#4 else code := by
  rw [checkNb, orElse_ite_some] at h
  split at h
  next hnb => obtain rfl := Option.some.inj h; rw [if_pos hnb]; rfl
  next hnb => rw [if_neg hnb]; exact hx h

theorem checkOrder_code (h : checkOrder dmax d = some c) : errCode c = 3#4 := by
  unfold checkOrder at h
  split at h <;> cases h
  rfl

/-- NOT_SUPPORTED is HO's, with an order in range; every other order error is ORDER. -/
theorem checkSchemeOrder_code {sch : Scheme} (h : checkSchemeOrder dmax d sch = some c) :
    errCode c = if sch = .ho ∧ 2 ≤ d ∧ d ≤ dmax then 4#4 else 3#4 := by
  rw [checkSchemeOrder_eq] at h
  split at h
  next hrange => obtain rfl := Option.some.inj h; rw [if_neg (by omega)]; rfl
  next hrange =>
    split at h
    next htwo => obtain rfl := Option.some.inj h; rw [if_neg (by tauto)]; rfl
    next =>
      split at h <;> cases h
      next hho => rw [if_pos ⟨hho.1, by omega⟩]; rfl

theorem checkSchemeOrder_code_of_ne {sch : Scheme} (hsch : sch ≠ .ho) (h : checkSchemeOrder dmax d sch = some c) :
    errCode c = 3#4 :=
  (checkSchemeOrder_code h).trans (if_neg fun hho => hsch hho.1)

theorem checkHoOrder_code (h : checkSchemeOrder dmax d .ho = some c) :
    errCode c = if 2 ≤ d ∧ d ≤ dmax then 4#4 else 3#4 := by
  simpa only [true_and] using checkSchemeOrder_code h

end Codes

/-! ### No step stops (60_exceptions.md R160, R164) -/

section Total

variable {s : State}

/-- A command's step answers a next state unless the engine is BUSY with a command it does not accept. -/
theorem exec_total {i : Instr} (h : s.status.busy = true → i.wellFormed s.cfg.dmax = true) :
    ∃ t, exec i s = .next t := by
  cases hb : s.status.busy with
  | false => exact ⟨_, exec_idle hb i⟩
  | true =>
    obtain hwait | hgot := Nat.lt_or_ge s.got.length (draws i)
    · exact ⟨_, (exec_eq i s).trans (runCommand_waits hb (h hb) hwait)⟩
    · exact ⟨_, exec_completes ⟨hb, h hb, hgot⟩⟩

/-- A BUSY engine runs an accepted command, by the invariant. -/
theorem engineStep_total (hs : s.Inv) : ∃ t, engineStep s = .next t := by
  obtain ⟨⟨hbusy, -⟩, -⟩ := hs
  cases hb : s.status.busy with
  | false => exact ⟨s, by simp [engineStep, hb]⟩
  | true =>
    obtain ⟨i, hd, hw, -⟩ := hbusy hb
    obtain ⟨t, ht⟩ := exec_total fun _ => hw
    exact ⟨t, by simp [engineStep, hb, hd, ht]⟩

theorem writeCmd_total (w : Word) (s : State) : ∃ t, writeCmd w s = .next t := by
  cases hb : s.status.busy with
  | false => exact ⟨_, writeCmd_idle w hb⟩
  | true => exact ⟨_, writeCmd_busy w hb⟩

theorem busWrite_total (r : Option Reg) (v : Word) (s : State) : ∃ t, busWrite r v s = .next t := by
  match r with
  | some .cmd => exact writeCmd_total v s
  | none | some .status | some .ctrl | some .id | some .param | some .rngcnt | some (.px _) | some (.py _)
  | some (.pz _) | some (.sh _ _) => exact ⟨_, rfl⟩

theorem busStep_total (x : Txn) (s : State) : ∃ t, busStep x s = .next t := by
  cases hx : x.access with
  | read => exact ⟨_, by rw [busStep, hx]⟩
  | write v => simpa only [busStep, hx] using busWrite_total (target s x) v s

theorem eventStep_total (e : Event) (hs : s.Inv) : ∃ t, eventStep e s = .next t := by
  cases e with
  | bus x => exact busStep_total x s
  | rng w => exact ⟨_, rfl⟩
  | engine => exact engineStep_total hs
  | rst lost => exact ⟨_, rfl⟩

theorem step_total (hs : s.Inv) : ∃ t, step s = .next t := by
  cases h : s.sched with
  | nil => exact step_nil h ▸ engineStep_total hs
  | cons e rest => exact step_cons h ▸ eventStep_total e ((withSched_inv rest s).mpr hs)

end Total

/-! ### The sticky bits (60_exceptions.md R165-R167) -/

/-- OVR, WBUSY and BUSERR are set after as they were before, or newly set. -/
def StickyKept (s t : State) : Prop :=
  (s.status.ovr = true → t.status.ovr = true) ∧ (s.status.wbusy = true → t.status.wbusy = true) ∧
    (s.status.buserr = true → t.status.buserr = true)

section Sticky

variable {s t : State}

theorem stickyKept_of_status_eq (h : t.status = s.status) : StickyKept s t := by
  simp [StickyKept, h]

theorem exec_sticky {i : Instr} (h : exec i s = .next t) : StickyKept s t := by
  obtain ⟨-, -, -, -, -, -, hovr, hwbusy, hbuserr⟩ := exec_hostSide h
  simp [StickyKept, hovr, hwbusy, hbuserr]

theorem engineStep_sticky (h : engineStep s = .next t) : StickyKept s t := by
  obtain ⟨-, rfl⟩ | ⟨-, _, -, hexec⟩ := engineStep_cases h
  · exact stickyKept_of_status_eq rfl
  · exact exec_sticky hexec

theorem writeCmd_sticky {w : Word} (h : writeCmd w s = .next t) : StickyKept s t := by
  obtain ⟨-, rfl⟩ | ⟨-, c, -, rfl⟩ | ⟨-, i, -, hexec⟩ := writeCmd_cases h
  · simp [StickyKept]
  · simp [StickyKept]
  · exact exec_sticky (s := latch w s) hexec

theorem busRead_sticky (r : Option Reg) (s : State) : StickyKept s (busRead r s) := by
  obtain ⟨-, h⟩ | ⟨_, _, -, -, h⟩ | ⟨_, -, -, h⟩ := busRead_cases r s <;> simp [h, StickyKept]

theorem DataStore.status_eq {store : State → State} (h : DataStore store) (s : State) :
    (store s).status = s.status := by
  cases h <;> rfl

/-- A data write is answered OK and may set WBUSY, and no other STATUS bit changes (20_memory.md R49). -/
theorem DataStore.writeData_effect {store : State → State} (hstore : DataStore store) (s : State) :
    (writeData store s).resp = .written ∧ (writeData store s).status.buserr = s.status.buserr ∧
      StickyKept s (writeData store s) := by
  cases hb : s.status.busy
  · simp [writeData_idle hb, hstore.status_eq, StickyKept]
  · simp [writeData_busy hb, StickyKept]

theorem busWrite_sticky {r : Option Reg} {v : Word} (hr : r ≠ some .status) (h : busWrite r v s = .next t) :
    StickyKept s t := by
  obtain ⟨-, rfl⟩ | ⟨-, hcmd⟩ | ⟨hstatus, -⟩ | ⟨-, rfl⟩ | ⟨_, hstore, rfl⟩ := busWrite_cases h
  · simp [StickyKept, writeRefused]
  · exact writeCmd_sticky hcmd
  · exact absurd hstatus hr
  · exact stickyKept_of_status_eq rfl
  · obtain ⟨-, -, hsticky⟩ := hstore.writeData_effect s
    exact hsticky

theorem map_slot_ne_status {dmax n : Nat} {f : Fin 16 → Reg} (hf : ∀ k, f k ≠ .status) :
    (slot dmax n).map f ≠ some .status := by
  intro h
  obtain ⟨k, -, hk⟩ := Option.map_eq_some_iff.mp h
  exact hf k hk

/-- STATUS is at its offset only (20_memory.md R41). -/
theorem regAt_eq_status {dmax : Nat} {off : BitVec 12} (h : regAt dmax off = some .status) : off.toNat = 4 := by
  unfold regAt at h
  dsimp only at h
  split at h
  · cases h
  split at h
  · split at h <;> cases h
    omega
  split at h
  · cases h
  split at h
  · exact absurd h (map_slot_ne_status nofun)
  split at h
  · exact absurd h (map_slot_ne_status nofun)
  split at h
  · exact absurd h (map_slot_ne_status nofun)
  · exact absurd h (map_slot_ne_status nofun)

theorem target_eq_status {x : Txn} (h : target s x = some .status) : x.off.toNat = 4 := by
  unfold target at h
  split at h
  · exact regAt_eq_status h
  · cases h

theorem busStep_sticky {x : Txn} (hx : ∀ v, x.access = .write v → x.off.toNat ≠ 4) (h : busStep x s = .next t) :
    StickyKept s t := by
  unfold busStep at h
  split at h
  · obtain rfl := Host.Outcome.next.inj h
    exact busRead_sticky _ s
  next v hwrite => exact busWrite_sticky (fun hq => hx v hwrite (target_eq_status hq)) h

/-- Every event but a reset and a write at STATUS's offset keeps the sticky bits. -/
theorem eventStep_sticky {e : Event} (hreset : ∀ lost, e ≠ .rst lost)
    (hwrite : ∀ x v, e = .bus x → x.access = .write v → x.off.toNat ≠ 4) (h : eventStep e s = .next t) :
    StickyKept s t := by
  cases e with
  | bus x => exact busStep_sticky (fun v => hwrite x v rfl) h
  | rng w =>
    obtain rfl := Host.Outcome.next.inj h
    obtain ⟨-, hoffer⟩ | ⟨-, hoffer⟩ := offerWord_cases w s <;> exact stickyKept_of_status_eq (by rw [hoffer])
  | engine => exact engineStep_sticky h
  | rst lost => exact absurd rfl (hreset lost)

/-! ### A transaction that is no bus error (60_exceptions.md R165) -/

theorem writeCmd_answer {w : Word} (h : writeCmd w s = .next t) :
    t.resp = .written ∧ t.status.buserr = s.status.buserr := by
  obtain ⟨-, rfl⟩ | ⟨-, c, -, rfl⟩ | ⟨-, i, -, hexec⟩ := writeCmd_cases h
  · simp
  · simp
  · obtain ⟨-, -, -, -, hresp, -, -, -, hbuserr⟩ := exec_hostSide hexec
    exact ⟨hresp, hbuserr⟩

/-- A write that reaches a writable register is answered OK, and only one to STATUS changes BUSERR. -/
theorem busWrite_answer {q : Reg} {v : Word} (hq : ¬ q.ReadOnly) (h : busWrite (some q) v s = .next t) :
    t.resp = .written ∧ (q ≠ .status → t.status.buserr = s.status.buserr) := by
  obtain ⟨hro, -⟩ | ⟨-, hcmd⟩ | ⟨hstatus, rfl⟩ | ⟨-, rfl⟩ | ⟨_, hstore, rfl⟩ := busWrite_cases h
  · obtain h | h | h | h | ⟨k, h⟩ := hro <;> cases h <;> exact absurd trivial hq
  · obtain ⟨hresp, hbuserr⟩ := writeCmd_answer hcmd
    exact ⟨hresp, fun _ => hbuserr⟩
  · exact ⟨rfl, fun hne => absurd (Option.some.inj hstatus) hne⟩
  · exact ⟨rfl, fun _ => rfl⟩
  · obtain ⟨hresp, hbuserr, -⟩ := hstore.writeData_effect s
    exact ⟨hresp, fun _ => hbuserr⟩

theorem busStep_answer {x : Txn} (hgood : ¬ specBusError s.cfg.dmax x) (h : busStep x s = .next t) :
    BusResp.isError t.resp = false ∧
      (¬ (x.off.toNat = 4 ∧ ∃ v, x.access = .write v) → t.status.buserr = s.status.buserr) := by
  rw [specBusError_iff, not_or] at hgood
  obtain ⟨hreach, hwritable⟩ := hgood
  obtain ⟨q, hq⟩ := Option.ne_none_iff_exists'.mp hreach
  cases hx : x.access with
  | read =>
    obtain ⟨v, f, hread⟩ := busStep_read_some hx hq
    obtain rfl := Host.Outcome.next.inj (hread.symm.trans h)
    exact ⟨rfl, fun _ => rfl⟩
  | write v =>
    simp only [busStep, hx, hq] at h
    obtain ⟨hresp, hbuserr⟩ := busWrite_answer (fun hro => hwritable ⟨v, q, hx, hq, hro⟩) h
    refine ⟨by rw [hresp]; rfl, fun hne => hbuserr ?_⟩
    rintro rfl
    exact hne ⟨target_eq_status hq, v, rfl⟩

end Sticky

/-! ### The interrupt line (60_exceptions.md R168) -/

theorem irq_examined (r : Option CmdError) (s : State) : irq (examined r s) = (r.isSome && s.ie) := by
  cases r <;> simp [irq, examined]

theorem check_isSome (c : Config) (i : Instr) : (check c.dmax i).isSome = !i.wellFormed c.dmax := by
  have hw := check_none c i
  cases hc : check c.dmax i with
  | none => simp [hw.mp hc]
  | some e => simpa [hc] using hw

theorem irq_resetStep (lost : Option Txn) (s : State) : irq (resetStep lost s) = false := by
  cases lost with
  | none => rfl
  | some x => cases h : x.access <;> simp [resetStep, h, irq, State.resetOf]

end Sys2Proof.Machine

/-! ### The statements -/

namespace Sys2Proof.Proofs

open Sys2Proof.Machine

/-- Settles O4: the checks of R162 find the error that the decoder and the checks on the command find. -/
theorem commandWriteFollowsCheckOrder : Obligations.CommandWriteFollowsCheckOrder := by
  intro s w rest hb h
  rw [step_hostWr_cmd h, writeCmd_idle (s := { s with sched := rest }) w hb, specReject_eq]
  cases rejection s.cfg.dmax w with
  | none => rfl
  | some c => simp [examined, reject, latch, rejectedStatus]

/-- Settles O5: the rejected branch of O4, field by field. -/
theorem rejectedWriteChangesOnlyCmdAndStatus : Obligations.RejectedWriteChangesOnlyCmdAndStatus := by
  intro s w rest code hb h hcode
  have hstep := commandWriteFollowsCheckOrder s w rest hb h
  rw [hcode] at hstep
  exact ⟨_, hstep, rfl, rfl, rfl, rfl, rfl, hb, ⟨rfl, rfl, rfl, rfl⟩, rfl, rfl, rfl, rfl, rfl, rfl, rfl, rfl, rfl⟩

/-- Settles O6: a command that is not well formed fails a check, whose error names the code. -/
theorem illFormedCommandIsRejected : Obligations.IllFormedCommandIsRejected := by
  intro i s hb hw
  have hsome := check_isSome s.cfg i
  rw [hw] at hsome
  obtain ⟨c, hc⟩ := Option.isSome_iff_exists.mp hsome
  refine ⟨errCode c, by rw [exec_idle hb, hc]; rfl, ?_⟩
  cases i with
  | permute nb f => exact checkNb_code hc
  | mask nb d => exact checkNb_orElse_code checkOrder_code hc
  | unmask nb d => exact checkNb_orElse_code checkOrder_code hc
  | mpermuteBool nb f d => exact checkNb_orElse_code (checkSchemeOrder_code_of_ne (sch := .bool) nofun) hc
  | mpermuteConv nb f d => exact checkNb_orElse_code (checkSchemeOrder_code_of_ne (sch := .conv) nofun) hc
  | mpermuteGoubin nb f d => exact checkNb_orElse_code (checkSchemeOrder_code_of_ne (sch := .goubin) nofun) hc
  | mpermuteKs nb f d => exact checkNb_orElse_code (checkSchemeOrder_code_of_ne (sch := .ks) nofun) hc
  | mpermuteHo nb f d => exact checkNb_orElse_code checkHoOrder_code hc
  | secand d => exact checkOrder_code hc
  | maddBool d => exact checkSchemeOrder_code_of_ne (sch := .bool) nofun hc
  | maddConv d => exact checkSchemeOrder_code_of_ne (sch := .conv) nofun hc
  | maddGoubin d => exact checkSchemeOrder_code_of_ne (sch := .goubin) nofun hc
  | maddKs d => exact checkSchemeOrder_code_of_ne (sch := .ks) nofun hc
  | maddHo d => exact checkHoOrder_code hc
  | nop | b2a | a2b | zeroize => cases hc

/-- Settles O11. -/
theorem stepRunsWrittenCommand : Obligations.StepRunsWrittenCommand := by
  intro s w i rest hb h hd
  rw [step_hostWr_cmd h]
  exact writeCmd_of_decode (s := { s with sched := rest }) hb hd

/-- Settles O40: a bad access is answered with an error (O39), and every other one with OK. -/
theorem busErrorExactlyOnBadAccess : Obligations.BusErrorExactlyOnBadAccess := by
  intro s t x rest h hstep
  rw [step_cons h] at hstep
  by_cases hbad : specBusError s.cfg.dmax x
  · obtain ⟨r, f, herror, hstep'⟩ := busStep_of_busError (s := { s with sched := rest }) hbad
    obtain rfl := Host.Outcome.next.inj (hstep'.symm.trans hstep)
    exact ⟨iff_of_true herror hbad, fun hgood => absurd hbad hgood⟩
  · obtain ⟨hresp, hbuserr⟩ := busStep_answer (s := { s with sched := rest }) hbad hstep
    exact ⟨iff_of_false (by simp [hresp]) hbad, fun _ => hbuserr⟩

/-- Settles O45. -/
theorem busyCommandWriteIsAnOverrun : Obligations.BusyCommandWriteIsAnOverrun := by
  intro s w rest hb h
  rw [step_hostWr_cmd h]
  exact writeCmd_busy (s := { s with sched := rest }) w hb

/-- Settles O46. -/
theorem statusWriteAcknowledges : Obligations.StatusWriteAcknowledges := by
  intro s v rest h
  refine ⟨acknowledge v s.status, step_hostWr_status h, ?_⟩
  simp +contextual

/-- Settles O47: only a write at STATUS's offset reaches STATUS, and no other operation clears a sticky bit. -/
theorem stickyBitsOutliveOtherSteps : Obligations.StickyBitsOutliveOtherSteps := by
  intro s t h hreset hwrite
  obtain ⟨-, hengine⟩ | ⟨e, rest, hsched, hevent⟩ := step_cases h
  · exact engineStep_sticky hengine
  · rw [hsched, List.head?_cons] at hreset hwrite
    refine eventStep_sticky (s := { s with sched := rest }) (fun lost he => hreset lost (congrArg some he))
      (fun x v he hv hoff => ?_) hevent
    exact hwrite x v (congrArg some he) hv (BitVec.eq_of_toNat_eq hoff)

/-- Settles O54: IRQ is IE and DONE, and each of these steps says what it leaves in them. -/
theorem interruptFollowsDone : Obligations.InterruptFollowsDone := by
  obtain ⟨hctrl, -⟩ := ctrlHoldsOnlyIe
  refine ⟨fun i s h => ?_, fun s w rest hb h => ?_, fun i s hb => ?_, fun s v rest h => ?_, fun s v rest h => ?_,
    fun s x rest h => ?_⟩
  · obtain ⟨t, hexec, ⟨-, -, hdone, -, -, -, -, -, hie, -⟩, -⟩ := exec_ready h
    exact ⟨t, hexec, by rw [irq, hdone, hie, Bool.and_true]⟩
  · rw [step_hostWr_cmd h]
    refine ⟨_, writeCmd_idle (s := { s with sched := rest }) w hb, ?_⟩
    rw [irq_examined, specReject_eq, Option.isSome_map]
    rfl
  · exact ⟨_, exec_idle hb i, by rw [irq_examined, check_isSome]⟩
  · exact ⟨_, hctrl s v rest h, rfl⟩
  · exact ⟨_, step_hostWr_status h, (Bool.and_assoc _ _ _).symm⟩
  · exact ⟨_, step_cons h, irq_resetStep x _⟩

/-- Settles O57. -/
theorem noStepStops : Obligations.NoStepStops := fun _ => step_total

end Sys2Proof.Proofs
end

section
/-! SUPPORT. Proofs of the statements of 70_reset_and_hazards.md: reset (R180), acceptance and completion (R183, R190),
the wait for RNG words (R187), and what a BUSY engine keeps from the host. -/

namespace Sys2Proof.Machine

/-! ### Reset (70_reset_and_hazards.md R180) -/

/-- A transaction that a reset overlaps is lost; it is not answered with an error. -/
theorem resetStep_resp_isError (lost : Option Txn) (s : State) : BusResp.isError (resetStep lost s).resp = false := by
  cases lost with
  | none => rfl
  | some x => cases h : x.access <;> simp [resetStep, h, respond, respondFree, BusResp.isError]

theorem resetStep_busy (lost : Option Txn) (s : State) : (resetStep lost s).status.busy = false := by
  obtain ⟨r, f, heq⟩ := resetStep_eq lost s
  rw [heq]
  rfl

/-! ### The engine's turn (70_reset_and_hazards.md R183, R187) -/

theorem exec_accepts {i : Instr} {s : State} (hb : s.status.busy = false) (hw : i.wellFormed s.cfg.dmax = true) :
    exec i s = .next (accept s) :=
  (exec_eq i s).trans (runCommand_accepts hb hw)

theorem exec_waits {i : Instr} {s : State} (hb : s.status.busy = true) (hw : i.wellFormed s.cfg.dmax = true)
    (hg : s.got.length < draws i) : exec i s = .next s :=
  (exec_eq i s).trans (runCommand_waits hb hw hg)

theorem engineStep_of_decode {i : Instr} {s : State} (hb : s.status.busy = true) (hd : decode s.cmd = .ok i) :
    engineStep s = exec i s := by
  simp [engineStep, hb, hd]

theorem engineStep_ready {i : Instr} {s : State} (hd : decode s.cmd = .ok i) (h : Ready i s) :
    ∃ t, engineStep s = .next t ∧ Completed (draws i) s t := by
  obtain ⟨t, hexec, hdone, -⟩ := exec_ready h
  obtain ⟨hb, -⟩ := h
  exact ⟨t, (engineStep_of_decode hb hd).trans hexec, hdone⟩

/-! ### Runs of several steps -/

theorem run_succ {s t : State} (h : step s = .next t) (n : Nat) :
    Host.Core.run core (n + 1) s = Host.Core.run core n t := by
  have hcore : core.step s = .next t := h
  simp only [Host.Core.run, hcore]

/-- The running command receives the words offered one by one, as long as it needs them (10_state.md R35). -/
theorem run_rngWords {i : Instr} {rest : List Event} (ws : List Word) (n : Nat) (s : State)
    (hb : s.status.busy = true) (hd : decode s.cmd = .ok i) (hlen : s.got.length + ws.length ≤ draws i)
    (h : s.sched = ws.map Event.rng ++ rest) :
    Host.Core.run core (ws.length + n) s = Host.Core.run core n { s with sched := rest, got := s.got ++ ws } := by
  induction ws generalizing s with
  | nil =>
    obtain rfl : s.sched = rest := h
    simp
  | cons w ws ih =>
    rw [List.length_cons] at hlen
    obtain ⟨hneeded, -⟩ := Proofs.rngWordIsConsumedWhenNeeded s w (ws.map Event.rng ++ rest) h
    have hstep := hneeded i hb hd
    rw [if_pos (by omega)] at hstep
    have hlen' : (s.got ++ [w]).length + ws.length ≤ draws i := by
      rw [List.length_append, List.length_singleton]
      omega
    rw [List.length_cons, Nat.add_right_comm, run_succ hstep,
      ih { s with sched := ws.map Event.rng ++ rest, got := s.got ++ [w] } hb hd hlen' rfl]
    simp

/-- A running command that receives the words it still needs and then has the turn completes. -/
theorem run_completes {i : Instr} {s : State} {ws : List Word} (hb : s.status.busy = true) (hd : decode s.cmd = .ok i)
    (hw : i.wellFormed s.cfg.dmax = true) (hlen : s.got.length + ws.length = draws i)
    (h : s.sched = ws.map Event.rng ++ [Event.engine]) :
    ∃ t, Host.Core.run core (ws.length + 1) s = .next t ∧ Completed (draws i) { s with sched := [] } t := by
  obtain ⟨t, hturn, hdone⟩ :=
    engineStep_ready (s := { s with sched := [], got := s.got ++ ws }) hd ⟨hb, hw, by simp [hlen]⟩
  have hengine : step { s with sched := [.engine], got := s.got ++ ws } = .next t :=
    (step_cons (e := .engine) (rest := []) rfl).trans hturn
  refine ⟨t, ?_, hdone⟩
  rw [run_rngWords ws 1 s hb hd hlen.le h, run_succ hengine]
  rfl

/-! ### What a BUSY engine keeps from the host (70_reset_and_hazards.md R183, 20_memory.md R49) -/

/-- The data, CMD and RNGCNT are as before, and no RNG word received is lost. -/
def EngineSideKept (s t : State) : Prop :=
  SameData s t ∧ t.cmd = s.cmd ∧ t.rngcnt = s.rngcnt ∧ ∃ ws, t.got = s.got ++ ws

theorem EngineSideKept.refl (s : State) : EngineSideKept s s :=
  ⟨⟨rfl, rfl, rfl, rfl⟩, rfl, rfl, [], (List.append_nil _).symm⟩

section Busy

variable {s t : State}

/-- A BUSY engine's command either waits, or completes and clears BUSY. -/
theorem exec_stays_busy {i : Instr} (hb : s.status.busy = true) (h : exec i s = .next t)
    (ht : t.status.busy = true) : t = s := by
  obtain ⟨hidle, -⟩ | ⟨hidle, -⟩ | ⟨-, -, -, heq⟩ | ⟨-, rfl⟩ := exec_cases h
  · simp [hb] at hidle
  · simp [hb] at hidle
  · exact heq
  · simp at ht

theorem engineStep_stays_busy (hb : s.status.busy = true) (h : engineStep s = .next t)
    (ht : t.status.busy = true) : t = s := by
  obtain ⟨-, heq⟩ | ⟨-, _, -, hexec⟩ := engineStep_cases h
  · exact heq
  · exact exec_stays_busy hb hexec ht

theorem offerWord_engineSideKept (w : Word) (s : State) : EngineSideKept s (offerWord w s) := by
  obtain ⟨-, heq⟩ | ⟨-, heq⟩ := offerWord_cases w s
  · rw [heq]
    exact ⟨⟨rfl, rfl, rfl, rfl⟩, rfl, rfl, [w], rfl⟩
  · rw [heq]
    exact .refl s

theorem busRead_engineSideKept (r : Option Reg) (s : State) : EngineSideKept s (busRead r s) := by
  obtain ⟨-, heq⟩ | ⟨_, _, -, -, heq⟩ | ⟨_, -, -, heq⟩ := busRead_cases r s <;> rw [heq] <;> exact .refl s

/-- While BUSY a CMD write is an overrun and a data write is dropped; the other writes reach only STATUS, IE and the
bus's answer. -/
theorem busWrite_engineSideKept {r : Option Reg} {v : Word} (hb : s.status.busy = true)
    (h : busWrite r v s = .next t) : EngineSideKept s t := by
  obtain ⟨-, rfl⟩ | ⟨-, hcmd⟩ | ⟨-, rfl⟩ | ⟨-, rfl⟩ | ⟨_, -, rfl⟩ := busWrite_cases h
  · exact .refl s
  · obtain rfl := Host.Outcome.next.inj ((writeCmd_busy v hb).symm.trans hcmd)
    exact .refl s
  · exact .refl s
  · exact .refl s
  · rw [writeData_busy hb]
    exact .refl s

theorem busStep_engineSideKept {x : Txn} (hb : s.status.busy = true) (h : busStep x s = .next t) :
    EngineSideKept s t := by
  unfold busStep at h
  split at h
  · obtain rfl := Host.Outcome.next.inj h
    exact busRead_engineSideKept _ s
  · exact busWrite_engineSideKept hb h

theorem eventStep_engineSideKept {e : Event} (hb : s.status.busy = true) (h : eventStep e s = .next t)
    (ht : t.status.busy = true) : EngineSideKept s t := by
  cases e with
  | bus x => exact busStep_engineSideKept hb h
  | rng w =>
    obtain rfl := Host.Outcome.next.inj h
    exact offerWord_engineSideKept w s
  | engine =>
    obtain rfl := engineStep_stays_busy hb h ht
    exact .refl t
  | rst lost =>
    obtain rfl := Host.Outcome.next.inj h
    rw [resetStep_busy] at ht
    cases ht

theorem step_engineSideKept (hb : s.status.busy = true) (h : step s = .next t) (ht : t.status.busy = true) :
    EngineSideKept s t := by
  obtain ⟨-, hengine⟩ | ⟨_, rest, -, hevent⟩ := step_cases h
  · obtain rfl := engineStep_stays_busy hb hengine ht
    exact .refl t
  · exact eventStep_engineSideKept (s := { s with sched := rest }) hb hevent ht

end Busy

end Sys2Proof.Machine

/-! ### The statements -/

namespace Sys2Proof.Proofs

open Sys2Proof.Machine

/-- Settles O7. -/
theorem wellFormedCommandIsAccepted : Obligations.WellFormedCommandIsAccepted := fun _ _ => exec_accepts

/-- Settles O8. -/
theorem readyCommandCompletes : Obligations.ReadyCommandCompletes := by
  intro i s h
  obtain ⟨t, hexec, hdone, -⟩ := exec_ready h
  exact ⟨t, hexec, hdone⟩

/-- Settles O9. -/
theorem engineWaitsForWords : Obligations.EngineWaitsForWords := fun _ _ => exec_waits

/-- Settles O12. -/
theorem stepRunsLatchedCommand : Obligations.StepRunsLatchedCommand := by
  intro s i hb hd
  refine ⟨fun h => ?_, fun rest h => ?_⟩
  · rw [step_nil h]
    exact engineStep_of_decode hb hd
  · rw [step_cons h]
    exact engineStep_of_decode (s := { s with sched := rest }) hb hd

/-- Settles O52. -/
theorem resetClearsEverything : Obligations.ResetClearsEverything := by
  intro s x rest h
  have hresp := resetStep_resp_isError x { s with sched := rest }
  obtain ⟨r, f, heq⟩ := resetStep_eq x { s with sched := rest }
  rw [heq] at hresp
  exact ⟨r, f, hresp, (step_cons h).trans (congrArg Host.Outcome.next heq)⟩

/-- Settles O58: a step that leaves the engine BUSY is the engine's wait, an RNG word or a host access, which keep the
engine's side. -/
theorem busyEngineOwnsTheData : Obligations.BusyEngineOwnsTheData := fun _ _ => step_engineSideKept

/-- Settles O10: the CMD write accepts the command, which then receives its words and completes. -/
theorem acceptedCommandRunsToCompletion : Obligations.AcceptedCommandRunsToCompletion := by
  intro i s ws hb hw hlen h
  have haccept := (stepRunsWrittenCommand s _ i _ hb h (decode_encode i)).trans (exec_accepts hb hw)
  obtain ⟨t, hrun, hcnt, hbusy, hdone, -, herr, -, -, hcmd, -, hsched, -⟩ :=
    run_completes (s := accept (latch (encode i) { s with sched := ws.map Event.rng ++ [.engine] })) rfl
      (decode_encode i) hw (by simp [hlen]) rfl
  exact ⟨t, (run_succ haccept _).trans hrun, hcmd, hbusy, hdone, herr, hcnt, hsched⟩

end Sys2Proof.Proofs
end
